-- ==== Sys2Proof/Word.lean ====
section
/-!
DEFINITION. The words of the machine (spec 00_scope.md R8): an 8-bit byte (a register, a memory
cell, an instruction byte, an immediate), a 16-bit address, and the two 4-bit halves of an
instruction byte.
-/

namespace Sys2Proof

/-- A register, a memory cell, an instruction byte or an immediate: 8 bits (R8). -/
abbrev Byte := BitVec 8

/-- A memory address or the program counter: 16 bits (R8). -/
abbrev Addr := BitVec 16

/-- Half of an instruction byte: the opcode or the operand (R8, R81). -/
abbrev Nibble := BitVec 4

end Sys2Proof
end

