-- ==== Sys2Proof/Config.lean ====
section
/-!
DEFINITION. The implementation parameters of the spec (00_scope.md R6, R7) at the values this
hardware takes, and the one value the spec leaves free (93_implementation_defined.md U7).
-/

namespace Sys2Proof

/-- The two legal values of the parameter `PC_WRAP` (R7). -/
inductive PcWrap where
  | fault
  | wrap
  deriving DecidableEq, Repr

namespace Config

/-- `NREG`, the number of general registers: 4 or 8, and 4 in this hardware (R6). Log 1. -/
abbrev nreg : Nat := 4

/-- `PC_WRAP`, what incrementing a `pc` of 0xFFFF does: `fault` in this hardware (R7). Log 2. -/
abbrev pcWrap : PcWrap := .fault

/-- FREE VALUE. The content of the target cell after a write the memory did not accept: "any
value for that one cell (old value, new value or anything else)" (U7). The argument is the
number of such values drawn so far, so each is a fresh unknown. Log 7. -/
opaque failedWriteByte : Nat → Byte

end Config

end Sys2Proof
end

