-- ==== Sys2Proof/Machine/State.lean ====
section
/-!
DEFINITION. The state of the machine (spec 10_state.md), the fault record (60_exceptions.md R160,
R161), the memory's answers and transactions (00_scope.md R18, 20_memory.md R53, R54), and the
state after reset (R42, R43).
-/

namespace Sys2Proof.Machine

/-- The four condition flags (R30). -/
structure Flags where
  z : Bool
  n : Bool
  c : Bool
  v : Bool
  deriving DecidableEq, Repr

/-- The kind of a fatal fault (R160). -/
inductive FaultKind where
  | decodeError
  | memCorruption
  | memUnavailable
  | pcOverflow
  deriving DecidableEq, Repr

/-- The three kinds of memory read (R51, R160). -/
inductive ReadKind where
  | instruction
  | immediate
  | data
  deriving DecidableEq, Repr

/-- The direction of a memory transaction (R160). -/
inductive Direction where
  | read
  | write
  deriving DecidableEq, Repr

/-- The fault record: what is recorded for each kind of fault (R160, R161). -/
inductive FaultInfo where
  /-- The illegal byte and the address it was fetched from. -/
  | decodeError (byte : Byte) (addr : Addr)
  /-- The address read and which of the three kinds of read it was. -/
  | memCorruption (addr : Addr) (kind : ReadKind)
  /-- The address and whether it was read or written. -/
  | memUnavailable (addr : Addr) (dir : Direction)
  /-- The program counter that could not be incremented. -/
  | pcOverflow (pc : Addr)
  deriving DecidableEq, Repr

/-- The execution status (R34). -/
inductive Status where
  | running
  | halted
  | faulted (kind : FaultKind)
  deriving DecidableEq, Repr

/-- The memory's answer to a read still to come: an input the program does not control (R53, R56,
R57, R68). -/
inductive ReadAnswer where
  | ok
  | corruption
  | unavailable
  /-- The memory never completes the transaction (R68). -/
  | never
  deriving DecidableEq, Repr

/-- The memory's answer to a write still to come (R54, R57, R68). -/
inductive WriteAnswer where
  | ok
  | unavailable
  /-- The memory never completes the transaction (R68). -/
  | never
  deriving DecidableEq, Repr

/-- What a completed read brought back: `mem_rdata` or `mem_err` (R18). -/
inductive ReadReply where
  | byte (b : Byte)
  | corruption
  | unavailable
  deriving DecidableEq, Repr

/-- What a completed write brought back (R18). -/
inductive WriteReply where
  | done
  | unavailable
  deriving DecidableEq, Repr

/-- What the core asks of the memory: a transaction that is issued and not answered yet (R18, R107). -/
inductive Request where
  | read (kind : ReadKind) (addr : Addr)
  | write (addr : Addr) (value : Byte)
  deriving DecidableEq, Repr

/-- One completed memory transaction on the core's interface (R18, R107, R110). -/
inductive Transaction where
  | read (kind : ReadKind) (addr : Addr) (reply : ReadReply)
  | write (addr : Addr) (value : Byte) (reply : WriteReply)
  deriving DecidableEq, Repr

/-- The state. The first seven fields are the spec's (10_state.md); the last four are the model's
own: what the memory will answer, what has been asked of it, and how many free values were drawn. -/
structure State where
  /-- The general registers `x[0]` to `x[NREG-1]` (R20). -/
  regs : Vector Byte Config.nreg
  /-- The program counter (R25). -/
  pc : Addr
  /-- The instruction register (R28). -/
  ir : Byte
  /-- The flags Z, N, C, V (R30). -/
  flags : Flags
  /-- Running, Halted or Faulted (R34). -/
  status : Status
  /-- The fault record, absent unless a fault was raised (R161). -/
  faultInfo : Option FaultInfo
  /-- The memory `M`: the cells that do not hold what an unwritten cell reads as, by rising
  address (R40, R50). -/
  mem : List Host.Cell
  /-- MODEL'S OWN. The memory's answers to the reads still to come, the next one first; a read
  beyond the list is answered `ok` (log 5). -/
  readAnswers : List ReadAnswer
  /-- MODEL'S OWN. The same for the writes still to come (log 5). -/
  writeAnswers : List WriteAnswer
  /-- MODEL'S OWN. The transactions completed since reset, the newest first (log 8). -/
  bus : List Transaction
  /-- MODEL'S OWN. How many values of `Config.failedWriteByte` have been used (log 7). -/
  freeDraws : Nat
  deriving DecidableEq, Repr

/-- Why the model stops without a next state. The four fatal faults of the spec are NOT here: each
has a next state, with the status `Faulted` (R160, R171; log 3). -/
inductive Fault where
  /-- Raised by a memory transaction that the memory never completes: the core is stuck in the
  middle of the step, neither Halted nor Faulted, with `pending` on its interface (R18, R68, U11;
  log 6). Safe: the model stops where the hardware waits for ever. -/
  | memoryNeverAnswers (pending : Request)
  deriving DecidableEq, Repr

/-- Why the model gives no meaning. -/
inductive Refusal where
  /-- Raised by an arm of `exec` for an instruction that has no meaning yet. Safe. No arm of this
  model raises it. -/
  | notModelled (mnemonic : String)
  deriving DecidableEq, Repr

/-- The machine right after reset, with a memory no cell of which has been written (R42, R43). -/
def State.reset : State where
  regs := Vector.replicate Config.nreg 0x00#8
  pc := 0x0000#16
  ir := 0x00#8
  flags := ⟨false, false, false, false⟩
  status := .running
  faultInfo := none
  mem := []
  readAnswers := []
  writeAnswers := []
  bus := []
  freeDraws := 0

end Sys2Proof.Machine
end

