-- ==== Sys2Proof/Machine/Memory.lean ====
section
/-!
DEFINITION. The memory as data: a list of cells in one canonical form, one byte a cell (spec
20_memory.md R50, R53 to R55). What the memory answers to the core is Machine/Ops.lean's.
-/

namespace Sys2Proof.Machine.Memory

/-- What a cell reads as to which nothing was ever written (R43, R53, R55). -/
def unlisted : Byte := 0x00#8

/-- The cell with a given number. -/
def get : List Host.Cell → Nat → Byte
  | [], _ => unlisted
  | (k, v) :: m, a => if k = a then v else get m a

/-- Put a byte into a cell, keeping the cells by rising address and leaving out a cell that holds
what an unwritten cell reads as. -/
def put : List Host.Cell → Nat → Byte → List Host.Cell
  | [], a, v => if v = unlisted then [] else [(a, v)]
  | (k, w) :: m, a, v =>
    if a < k then
      if v = unlisted then (k, w) :: m else (a, v) :: (k, w) :: m
    else if a = k then
      if v = unlisted then m else (a, v) :: m
    else (k, w) :: put m a v

/-- `M[a]` (R19, R53). -/
def read (m : List Host.Cell) (a : Addr) : Byte := get m a.toNat

/-- `M[a] <- v`; no other cell changes (R54). -/
def write (m : List Host.Cell) (a : Addr) (v : Byte) : List Host.Cell := put m a.toNat v

/-- Addresses rise strictly from at least `lo`, are addresses (R50), and no cell holds what an
unlisted cell reads as. -/
def wfFrom (lo : Nat) : List Host.Cell → Bool
  | [] => true
  | (k, v) :: m => lo ≤ k && k < 65536 && v != unlisted && wfFrom (k + 1) m

/-- The canonical form of memory: equal memories are equal lists. -/
def wf (m : List Host.Cell) : Bool := wfFrom 0 m

end Sys2Proof.Machine.Memory
end

