-- ==== Sys2Proof/Syntax.lean ====
section
/-!
DEFINITION. The instructions: one constructor per row of spec/opcode_table.json, with every
operand of its format (spec 30_encoding.md R82).
-/

namespace Sys2Proof

/-- The names a general register can have: R0 to R3 in every machine, R4 to R7 only where
`NREG = 8` (R20). Whether the machine at hand has the register is `WellFormed`'s check. -/
inductive Reg where
  | r0 | r1 | r2 | r3 | r4 | r5 | r6 | r7
  deriving DecidableEq, Repr

/-- The number `i` of register `Ri` (R20, R86). -/
def Reg.number : Reg → Nat
  | .r0 => 0
  | .r1 => 1
  | .r2 => 2
  | .r3 => 3
  | .r4 => 4
  | .r5 => 5
  | .r6 => 6
  | .r7 => 7

/-- The field `p` of a register move: which of the two primary registers (R82, R89). -/
inductive Primary where
  | p0 | p1
  deriving DecidableEq, Repr

/-- An instruction with its operands. `u` is the ignored operand of format N (R91). -/
inductive Instr where
  /-- NOP (R120). -/
  | nop (u : Nibble)
  /-- LDI Rd, imm (R131). -/
  | ldi (d : Reg) (imm : Byte)
  /-- LDX Rd (R132). -/
  | ldx (d : Reg)
  /-- STX Rs (R133). -/
  | stx (r : Reg)
  /-- ADD (R141). -/
  | add
  /-- ADC (R142). -/
  | adc
  /-- MOVIN Rp, Rs (R150). -/
  | movin (p : Primary) (r : Reg)
  /-- MOVOUT Rd, Rp (R151). -/
  | movout (p : Primary) (d : Reg)
  /-- HALT (R122). -/
  | halt (u : Nibble)
  deriving DecidableEq, Repr

end Sys2Proof
end

