-- ==== Sys2Proof/Machine/Ops.lean ====
section
/-!
DEFINITION. The shared operations: raising a fault, memory transactions, the increment of the
program counter, latching a fetched byte, register access, and reset.
-/

namespace Sys2Proof.Machine

/-- What an action inside a step ends in: a value and the state after it, a step that a fault has
ended (R19 "raise"), or a transaction that the memory never answers (R68). -/
inductive Result (α : Type) where
  | value (a : α) (s : State)
  | raised (s : State)
  | stuck (pending : Request)

/-- The outcome of a step whose action ended so. -/
def Result.andThen {α : Type} (r : Result α)
    (k : α → State → Host.Outcome State Fault Refusal) : Host.Outcome State Fault Refusal :=
  match r with
  | .value a s => k a s
  | .raised s => .next s
  | .stuck r => .fault (.memoryNeverAnswers r)

/-- One action after another. -/
def Result.bind {α β : Type} (r : Result α) (k : α → State → Result β) : Result β :=
  match r with
  | .value a s => k a s
  | .raised s => .raised s
  | .stuck r => .stuck r

/-- The kind of a fault record (R160). -/
def FaultInfo.kind : FaultInfo → FaultKind
  | .decodeError _ _ => .decodeError
  | .memCorruption _ _ => .memCorruption
  | .memUnavailable _ _ => .memUnavailable
  | .pcOverflow _ => .pcOverflow

/-- Raising a fault: the status and the fault record, and nothing else; no address is saved, no
handler is entered (R161, R171). There is no return from a fault (R172). -/
def raise (info : FaultInfo) (s : State) : State :=
  { s with status := .faulted info.kind, faultInfo := some info }

/-- Raising `DecodeError` for the byte in `ir`, fetched from `pc - 1` (R105, R160, R162). -/
def raiseDecodeError (s : State) : State := raise (.decodeError s.ir (s.pc - 1#16)) s

/-- `MemRead(a, 1)` with the memory's next answer (R53, R56, R57, R160). -/
def memRead (kind : ReadKind) (a : Addr) (s : State) : Result Byte :=
  let s1 := { s with readAnswers := s.readAnswers.tail }
  match s.readAnswers.headD .ok with
  | .ok =>
    let b := Memory.read s.mem a
    .value b { s1 with bus := .read kind a (.byte b) :: s.bus }
  | .corruption =>
    .raised (raise (.memCorruption a kind) { s1 with bus := .read kind a .corruption :: s.bus })
  | .unavailable =>
    .raised (raise (.memUnavailable a .read) { s1 with bus := .read kind a .unavailable :: s.bus })
  | .never => .stuck (.read kind a)

/-- The contract `write(address, value)` on the memory's side, with its next answer: the reply and
the memory after it, or no reply ever (R54, R57, R68). After a write the memory did not accept the
one cell holds any value (U7): a free value. The core and the loader write through it (R195). -/
def writeContract (a : Addr) (v : Byte) (s : State) : Option (WriteReply × State) :=
  let s1 := { s with writeAnswers := s.writeAnswers.tail }
  match s.writeAnswers.headD .ok with
  | .ok => some (.done, { s1 with mem := Memory.write s.mem a v })
  | .unavailable =>
    some (.unavailable,
      { s1 with
        mem := Memory.write s.mem a (Config.failedWriteByte s.freeDraws)
        freeDraws := s.freeDraws + 1 })
  | .never => none

/-- `MemWrite(a, 1, v)`: the core's write, through the memory's contract (R54, R57, R160). -/
def memWrite (a : Addr) (v : Byte) (s : State) : Result Unit :=
  match writeContract a v s with
  | some (.done, s1) => .value () { s1 with bus := .write a v .done :: s.bus }
  | some (.unavailable, s1) =>
    .raised (raise (.memUnavailable a .write)
      { s1 with bus := .write a v .unavailable :: s.bus })
  | none => .stuck (.write a v)

/-- The incrementer of the program counter; `none` is the fault `PcOverflow` (R104). -/
def inc (w : PcWrap) (p : Addr) : Option Addr :=
  if p = 0xFFFF#16 then
    match w with
    | .fault => none
    | .wrap => some 0x0000#16
  else some (p + 1#16)

/-- The second half of `fetch()`: the byte read goes into `ir`, then `pc` is incremented (R102). -/
def latch (b : Byte) (s : State) : Result Byte :=
  let s1 := { s with ir := b }
  match inc Config.pcWrap s.pc with
  | some p => .value b { s1 with pc := p }
  | none => .raised (raise (.pcOverflow s.pc) s1)

/-- `fetch()`: read the byte at `pc`, put it into `ir`, increment `pc` (R102). -/
def fetch (kind : ReadKind) (s : State) : Result Byte :=
  (memRead kind s.pc s).bind latch

/-- `x[j]` (R19). -/
def State.reg (s : State) (j : Fin Config.nreg) : Byte := s.regs.get j

/-- `x[j] <- v`. Every register is ordinary: none is hardwired, none is an alias (R22). -/
def State.setReg (s : State) (j : Fin Config.nreg) (v : Byte) : State :=
  { s with regs := s.regs.set j v }

/-- Go on with the number of a register this machine has; an instruction that names another is
illegal and raises `DecodeError` (R22, R86). The decoder never gives such an instruction. Log 10. -/
def withReg (r : Reg) (s : State) (k : Fin Config.nreg → Host.Outcome State Fault Refusal) :
    Host.Outcome State Fault Refusal :=
  if h : r.number < Config.nreg then k ⟨r.number, h⟩ else .next (raiseDecodeError s)

/-- The event of reset: the core's state as after reset, the fault record cleared, memory kept
(R42, R43, R190, R191). The memory's answers are not the core's and stay; the record of
transactions starts anew (log 14). -/
def applyReset (s : State) : State :=
  { s with
    regs := State.reset.regs
    pc := State.reset.pc
    ir := State.reset.ir
    flags := State.reset.flags
    status := State.reset.status
    faultInfo := State.reset.faultInfo
    bus := State.reset.bus }

end Sys2Proof.Machine
end

