-- ==== Sys2Proof/Machine/Operands.lean ====
section
/-!
DEFINITION. The fixed register roles (spec 00_scope.md R9) and the one data address the machine
forms (40_fetch_step.md R107, R108). Every other operand is a register (Ops.lean, `withReg`) or
LDI's immediate (Fetch.lean).
-/

namespace Sys2Proof.Machine

/-- `ADDR_HI`, the high register of the indirect address: R2 (R9). -/
def addrHi : Fin Config.nreg := 2

/-- `ADDR_LO`, the low register of the indirect address: R3 (R9). -/
def addrLo : Fin Config.nreg := 3

/-- `ALU_A`, the first operand of the ALU: R0 (R9). -/
def aluA : Fin Config.nreg := 0

/-- `ALU_B`, the second operand of the ALU: R1 (R9). -/
def aluB : Fin Config.nreg := 1

/-- `ALU_DST`, the destination of the ALU: R0 (R9). -/
def aluDst : Fin Config.nreg := 0

/-- `PRIMARY[p]`: R0 or R1 (R9). -/
def primary : Primary → Fin Config.nreg
  | .p0 => 0
  | .p1 => 1

/-- The indirect address formed from a high and a low register: both zero-extended, the high one
shifted left by 4, the two or-ed (R108). -/
def indirect (h l : Byte) : Addr := (h.setWidth 16 <<< 4) ||| l.setWidth 16

/-- `ind_addr()` (R108). -/
def State.indAddr (s : State) : Addr := indirect (s.reg addrHi) (s.reg addrLo)

end Sys2Proof.Machine
end

