-- ==== Sys2Proof/Machine/Flags.lean ====
section
/-!
DEFINITION. The ALU function with its four flags (spec 43_alu.md R140) and the packed status word
(10_state.md R32, R33), which is a view of the flags that no instruction reads or writes.
-/

namespace Sys2Proof.Machine

/-- The sum in the integers, before it is narrowed (R140). -/
def aluSum (a b : Byte) (c : Bool) : Nat := a.toNat + b.toNat + c.toNat

/-- The result byte, `sum & 0xFF` (R140). -/
def aluResult (a b : Byte) (c : Bool) : Byte := BitVec.ofNat 8 (aluSum a b c)

/-- The four flags of `a + b + c` (R140). -/
def aluFlags (a b : Byte) (c : Bool) : Flags :=
  let r := aluResult a b c
  { z := r == 0x00#8
    n := (r &&& 0x80#8) != 0x00#8
    c := 0xFF < aluSum a b c
    v := (~~~(a ^^^ b) &&& (a ^^^ r) &&& 0x80#8) != 0x00#8 }

/-- The effect of an ALU instruction with the carry-in `c`: the result to its register, all four
flags written (R141, R142). -/
def aluInto (c : Bool) (s : State) : State :=
  let a := s.reg aluA
  let b := s.reg aluB
  { s.setReg aluDst (aluResult a b c) with flags := aluFlags a b c }

/-- The packed status word: Z, N, C, V in bits 7 to 4, bits 3 to 0 zero (R32). -/
def pack (f : Flags) : Byte :=
  (BitVec.ofBool f.z ++ BitVec.ofBool f.n ++ BitVec.ofBool f.c ++ BitVec.ofBool f.v) ++ 0x0#4

/-- The flags in a packed status word; bits 3 to 0 are ignored (R32). -/
def unpack (b : Byte) : Flags :=
  { z := b.getLsbD 7, n := b.getLsbD 6, c := b.getLsbD 5, v := b.getLsbD 4 }

end Sys2Proof.Machine
end

