-- ==== Sys2Proof/Machine/Alu.lean ====
section
/-!
DEFINITION. The ALU instructions ADD and ADC (spec 43_alu.md).
-/

namespace Sys2Proof.Machine

/-- ADD: R0 becomes R0 + R1, all four flags are written, the incoming C is ignored (R141). -/
def execAdd (s : State) : Host.Outcome State Fault Refusal := .next (aluInto false s)

/-- ADC: R0 becomes R0 + R1 + C with the C from before, all four flags are written (R142). -/
def execAdc (s : State) : Host.Outcome State Fault Refusal := .next (aluInto s.flags.c s)

end Sys2Proof.Machine
end

