-- ==== Sys2Proof/Machine/Control.lean ====
section
/-!
DEFINITION. The control instructions NOP and HALT (spec 41_control.md).
-/

namespace Sys2Proof.Machine

/-- NOP: no state change of its own, whatever its operand (R120, R121). -/
def execNop (_u : Nibble) (s : State) : Host.Outcome State Fault Refusal := .next s

/-- HALT: the status becomes Halted, whatever its operand; `pc` keeps the value its own fetch gave
it (R122, R123). -/
def execHalt (_u : Nibble) (s : State) : Host.Outcome State Fault Refusal :=
  .next { s with status := .halted }

end Sys2Proof.Machine
end

