-- ==== Sys2Proof/Machine/LoadStore.lean ====
section
/-!
DEFINITION. The loads and stores LDI, LDX and STX (spec 42_load_store.md).
-/

namespace Sys2Proof.Machine

/-- LDI Rd, imm: the immediate, read at `pc`, goes through `ir` like every fetched byte, `pc` is
incremented (which can raise `PcOverflow`), and then the register is written (R131, R134). The
read itself, which brings `imm`, is `fetchInstr`'s (log 9). -/
def execLdi (d : Reg) (imm : Byte) (s : State) : Host.Outcome State Fault Refusal :=
  withReg d s fun j => (latch imm s).andThen fun v s1 => .next (s1.setReg j v)

/-- LDX Rd: the byte at the indirect address to a register (R132, R135). -/
def execLdx (d : Reg) (s : State) : Host.Outcome State Fault Refusal :=
  withReg d s fun j => (memRead .data s.indAddr s).andThen fun v s1 => .next (s1.setReg j v)

/-- STX Rs: a register to the cell at the indirect address (R133, R136). -/
def execStx (r : Reg) (s : State) : Host.Outcome State Fault Refusal :=
  withReg r s fun j => (memWrite s.indAddr (s.reg j) s).andThen fun _ s1 => .next s1

end Sys2Proof.Machine
end

