-- ==== Sys2Proof/Machine/Move.lean ====
section
/-!
DEFINITION. The register moves MOVIN and MOVOUT (spec 44_move.md).
-/

namespace Sys2Proof.Machine

/-- MOVIN Rp, Rs: a register to a primary register (R150, R153). -/
def execMovin (p : Primary) (r : Reg) (s : State) : Host.Outcome State Fault Refusal :=
  withReg r s fun j => .next (s.setReg (primary p) (s.reg j))

/-- MOVOUT Rd, Rp: a primary register to a register (R151, R153). -/
def execMovout (p : Primary) (d : Reg) (s : State) : Host.Outcome State Fault Refusal :=
  withReg d s fun j => .next (s.setReg j (s.reg (primary p)))

end Sys2Proof.Machine
end

