-- ==== Sys2Proof/Machine/Dispatch.lean ====
section
/-! DEFINITION. The dispatch: one arm per instruction (spec 40_fetch_step.md R105). -/

namespace Sys2Proof.Machine

def exec (i : Instr) (s : State) : Host.Outcome State Fault Refusal :=
  match i with
  | .nop u => Sys2Proof.Machine.execNop u s
  | .ldi d imm => Sys2Proof.Machine.execLdi d imm s
  | .ldx d => Sys2Proof.Machine.execLdx d s
  | .stx r => Sys2Proof.Machine.execStx r s
  | .add => Sys2Proof.Machine.execAdd s
  | .adc => Sys2Proof.Machine.execAdc s
  | .movin p r => Sys2Proof.Machine.execMovin p r s
  | .movout p d => Sys2Proof.Machine.execMovout p d s
  | .halt u => Sys2Proof.Machine.execHalt u s

end Sys2Proof.Machine
end

