-- ==== Sys2Proof/WellFormed.lean ====
section
/-!
DEFINITION. Which instructions a machine with `NREG` registers has: those that name only registers
it has (spec 30_encoding.md R86, 10_state.md R22). No other operand value is unrecognised.
-/

namespace Sys2Proof

/-- A machine with `nreg` registers has the register (R20, R86). -/
def Reg.existsIn (nreg : Nat) (r : Reg) : Bool := r.number < nreg

/-- The instruction is one of a machine with `nreg` registers (R86, R152). -/
def Instr.wfFor (nreg : Nat) : Instr → Bool
  | .nop _ => true
  | .ldi d _ => d.existsIn nreg
  | .ldx d => d.existsIn nreg
  | .stx r => r.existsIn nreg
  | .add => true
  | .adc => true
  | .movin _ r => r.existsIn nreg
  | .movout _ d => d.existsIn nreg
  | .halt _ => true

/-- The instruction is one of this hardware (R6). -/
def Instr.wf (i : Instr) : Bool := i.wfFor Config.nreg

end Sys2Proof
end

