-- ==== Sys2Proof/Decode.lean ====
section
/-!
DEFINITION. The instruction decoder and, after it, the encoder and the assembly text (spec
30_encoding.md). The decoder is total: it answers one instruction or a named rejection for every
list of bytes, and its answer for a first byte depends on that byte and `NREG` only (R94).
-/

namespace Sys2Proof

/-- The high nibble of an instruction byte, `ir[7:4]` (R81). -/
def opcodeOf (b : Byte) : Nibble := b.extractLsb' 4 4

/-- The low nibble of an instruction byte, `ir[3:0]` (R81). -/
def operandOf (b : Byte) : Nibble := b.extractLsb' 0 4

/-- Why bytes are no instruction. The first four are the spec's illegal encodings (R90), the last
two say that the list given to the decoder ends too early. -/
inductive Reject where
  /-- Opcode 0x5 or 0x8 (R124). -/
  | reservedOpcode (op : Nibble)
  /-- Opcode 0x9 to 0xE (R124). -/
  | unpopulatedOpcode (op : Nibble)
  /-- A function select of opcode 0x4 other than 0 and 1 (R87). -/
  | unknownFunction (f : Nibble)
  /-- A register number that names no register of the machine (R86). -/
  | noSuchRegister (n : Nat)
  /-- No byte at all. -/
  | noByte
  /-- An LDI whose immediate is not there. -/
  | noImmediate
  deriving DecidableEq, Repr

/-- The decoder's answer: a value, or the reason of a rejection. -/
inductive Decoded (α : Type) where
  | accepted (a : α)
  | rejected (why : Reject)
  deriving DecidableEq, Repr

/-- Go on with an accepted value; a rejection stays as it is. -/
def Decoded.map {α β : Type} (f : α → β) : Decoded α → Decoded β
  | .accepted a => .accepted (f a)
  | .rejected e => .rejected e

/-- What the first byte of an instruction says: a whole instruction, or an LDI whose immediate is
the next byte (R80, R84). -/
inductive FirstByte where
  | whole (i : Instr)
  | ldi (d : Reg)
  deriving DecidableEq, Repr

/-- The register of a register number (R86). -/
def regOfNumber : Nat → Option Reg
  | 0 => some .r0
  | 1 => some .r1
  | 2 => some .r2
  | 3 => some .r3
  | 4 => some .r4
  | 5 => some .r5
  | 6 => some .r6
  | 7 => some .r7
  | _ => none

/-- The register a register number selects in a machine with `nreg` registers (R86). -/
def selectReg (nreg n : Nat) : Decoded Reg :=
  match regOfNumber n with
  | some r => if n < nreg then .accepted r else .rejected (.noSuchRegister n)
  | none => .rejected (.noSuchRegister n)

/-- The field `p = operand[3]` of format M (R89). -/
def primaryOf (operand : Nibble) : Primary := if operand.getLsbD 3 then .p1 else .p0

/-- The field `g = operand[2:0]` of format M, as a register number (R89). -/
def moveRegNumber (operand : Nibble) : Nat := (operand.extractLsb' 0 3).toNat

/-- The opcode map of a machine with `nreg` registers (R85, R88, R105). -/
def decodeFirst (nreg : Nat) (b : Byte) : Decoded FirstByte :=
  let operand := operandOf b
  match (opcodeOf b).toNat with
  | 0x0 => .accepted (.whole (.nop operand))
  | 0x1 => (selectReg nreg operand.toNat).map .ldi
  | 0x2 => (selectReg nreg operand.toNat).map fun d => .whole (.ldx d)
  | 0x3 => (selectReg nreg operand.toNat).map fun r => .whole (.stx r)
  | 0x4 =>
    match operand.toNat with
    | 0 => .accepted (.whole .add)
    | 1 => .accepted (.whole .adc)
    | _ => .rejected (.unknownFunction operand)
  | 0x5 => .rejected (.reservedOpcode (opcodeOf b))
  | 0x6 =>
    (selectReg nreg (moveRegNumber operand)).map fun r => .whole (.movin (primaryOf operand) r)
  | 0x7 =>
    (selectReg nreg (moveRegNumber operand)).map fun d => .whole (.movout (primaryOf operand) d)
  | 0x8 => .rejected (.reservedOpcode (opcodeOf b))
  | 0xF => .accepted (.whole (.halt operand))
  | _ => .rejected (.unpopulatedOpcode (opcodeOf b))

/-- The byte selects no instruction (R90, R106). -/
def illegal (nreg : Nat) (b : Byte) : Bool :=
  match decodeFirst nreg b with
  | .accepted _ => false
  | .rejected _ => true

/-- Complete a first byte with the bytes after it (R80, R83). -/
def completeInstr (first : FirstByte) (rest : List Byte) : Decoded (Instr × List Byte) :=
  match first, rest with
  | .whole i, rest => .accepted (i, rest)
  | .ldi d, imm :: rest => .accepted (.ldi d imm, rest)
  | .ldi _, [] => .rejected .noImmediate

/-- Decode one instruction at the head of a list of bytes, in a machine with `nreg` registers; the
bytes after it are returned. -/
def decodeFor (nreg : Nat) : List Byte → Decoded (Instr × List Byte)
  | [] => .rejected .noByte
  | b :: rest =>
    match decodeFirst nreg b with
    | .accepted first => completeInstr first rest
    | .rejected e => .rejected e

/-- The decoder of this hardware (R6, R88). -/
def decode (bytes : List Byte) : Decoded (Instr × List Byte) := decodeFor Config.nreg bytes

/-- The bytes of an instruction word of `nbits` bits as spec/opcode_table.json numbers them: the
first byte is bits 7:0, the second bits 15:8; bits from `nbits` on are 0. The longest instruction
has two bytes (R80). -/
def bytesOfWord (nbits w : Nat) : List Byte :=
  let v := w % 2 ^ nbits
  [BitVec.ofNat 8 v, BitVec.ofNat 8 (v / 256)]

/-- The instruction the decoder reads from an instruction word numbered as
spec/opcode_table.json numbers it, if any. -/
def decodeTableWord (nbits w : Nat) : Option Instr :=
  match decode (bytesOfWord nbits w) with
  | .accepted (i, _) => some i
  | .rejected _ => none

/-- A register number as an operand nibble (R82 formats R and RI). -/
def Reg.nibble (r : Reg) : Nibble := BitVec.ofNat 4 r.number

/-- The bit `p` of format M (R89). -/
def Primary.bit : Primary → BitVec 1
  | .p0 => 0#1
  | .p1 => 1#1

/-- The operand of format M: `p` above the three bits of the register number (R82, R89). -/
def moveOperand (p : Primary) (r : Reg) : Nibble := p.bit ++ BitVec.ofNat 3 r.number

/-- The bytes of an instruction (R82, R83, R88, R95). -/
def encode : Instr → List Byte
  | .nop u => [0x0#4 ++ u]
  | .ldi d imm => [0x1#4 ++ d.nibble, imm]
  | .ldx d => [0x2#4 ++ d.nibble]
  | .stx r => [0x3#4 ++ r.nibble]
  | .add => [0x4#4 ++ 0x0#4]
  | .adc => [0x4#4 ++ 0x1#4]
  | .movin p r => [0x6#4 ++ moveOperand p r]
  | .movout p d => [0x7#4 ++ moveOperand p d]
  | .halt u => [0xF#4 ++ u]

/-- How many bytes the instruction has: 2 for LDI, 1 otherwise (R80, R84). -/
def Instr.length : Instr → Nat
  | .ldi _ _ => 2
  | .nop _ | .ldx _ | .stx _ | .add | .adc | .movin _ _ | .movout _ _ | .halt _ => 1

/-- The primary register a field `p` names (R9, R89). -/
def Primary.reg : Primary → Reg
  | .p0 => .r0
  | .p1 => .r1

/-- The hexadecimal digit of a nibble, in upper case (R71, R95). -/
def hexDigit (n : Nibble) : Char :=
  match n.toNat with
  | 0 => '0' | 1 => '1' | 2 => '2' | 3 => '3' | 4 => '4' | 5 => '5' | 6 => '6' | 7 => '7'
  | 8 => '8' | 9 => '9' | 10 => 'A' | 11 => 'B' | 12 => 'C' | 13 => 'D' | 14 => 'E' | _ => 'F'

/-- The two hexadecimal digits of a byte, most significant first, in upper case (R71, R95). -/
def hexByte (b : Byte) : List Char := [hexDigit (opcodeOf b), hexDigit (operandOf b)]

/-- The text of a register name (R95). -/
def Reg.text (r : Reg) : List Char := ['R', hexDigit r.nibble]

/-- The assembly text of an instruction; the destination comes first (R95). -/
def Instr.text : Instr → List Char
  | .nop _ => ['N', 'O', 'P']
  | .ldi d imm => ['L', 'D', 'I', ' '] ++ d.text ++ [',', ' ', '0', 'x'] ++ hexByte imm
  | .ldx d => ['L', 'D', 'X', ' '] ++ d.text
  | .stx r => ['S', 'T', 'X', ' '] ++ r.text
  | .add => ['A', 'D', 'D']
  | .adc => ['A', 'D', 'C']
  | .movin p r => ['M', 'O', 'V', 'I', 'N', ' '] ++ p.reg.text ++ [',', ' '] ++ r.text
  | .movout p d => ['M', 'O', 'V', 'O', 'U', 'T', ' '] ++ d.text ++ [',', ' '] ++ p.reg.text
  | .halt _ => ['H', 'A', 'L', 'T']

end Sys2Proof
end

