-- ==== Sys2Proof/Machine/Fetch.lean ====
section
/-!
DEFINITION. Fetching an instruction: the instruction byte, the legality test, and the read of
LDI's immediate, in the order of spec 40_fetch_step.md R100, R105, R106, R110 and
60_exceptions.md R167.
-/

namespace Sys2Proof.Machine

/-- Fetch the instruction byte, test that it is legal before anything else happens, and for an LDI
read its immediate at `pc`; an LDI's `ir` and `pc` then change in `execLdi` (R93, R100, R106,
R131; log 9). -/
def fetchInstr (s : State) : Result Instr :=
  (fetch .instruction s).bind fun b s1 =>
    match decodeFirst Config.nreg b with
    | .rejected _ => .raised (raiseDecodeError s1)
    | .accepted (.whole i) => .value i s1
    | .accepted (.ldi d) => (memRead .immediate s1.pc s1).bind fun imm s2 => .value (.ldi d imm) s2

/-- A state whose next step fetches the bytes `b0`, `b1` at its `pc` and runs the instruction they
begin with: the two bytes are stored there, the machine runs, and the memory answers. A `pc` of
0xFFFF, from which nothing can be run (R104), is moved to 0x0000. Log 12. -/
def placeAtPc (b0 b1 : Byte) (s : State) : State :=
  let p := if s.pc = 0xFFFF#16 then 0x0000#16 else s.pc
  { s with
    pc := p
    status := .running
    faultInfo := none
    readAnswers := []
    mem := Memory.write (Memory.write s.mem p b0) (p + 1#16) b1 }

end Sys2Proof.Machine
end

