-- ==== Sys2Proof/Machine/Step.lean ====
section
/-! DEFINITION. The step (spec 40_fetch_step.md R100), and placing an instruction for it. -/

namespace Sys2Proof.Machine

/-- One step: `fetch()` then `execute()` while the status is Running; nothing at all otherwise
(R37, R100, R101; log 4). -/
def step (s : State) : Host.Outcome State Fault Refusal :=
  match s.status with
  | .running => (fetchInstr s).andThen exec
  | .halted => .next s
  | .faulted _ => .next s

/-- `s` with an instruction, numbered as spec/opcode_table.json numbers it, where the next step
fetches it. -/
def State.withFetchWord (s : State) (nbits w : Nat) : State :=
  match bytesOfWord nbits w with
  | [b0, b1] => placeAtPc b0 b1 s
  | _ => s

end Sys2Proof.Machine
end

