-- ==== Sys2Proof/Machine/Text.lean ====
section
/-!
DEFINITION. Reading hexadecimal text: what the reference backing store (spec 20_memory.md R74) and
the text loader (30_encoding.md R97) do with characters. Only the digits 0-9 and A-F count.
-/

namespace Sys2Proof.Machine

/-- The value of a hexadecimal digit in the alphabet `[0-9A-F]` (R72, R74). -/
def hexValue : Char → Option Nibble
  | '0' => some 0x0#4 | '1' => some 0x1#4 | '2' => some 0x2#4 | '3' => some 0x3#4
  | '4' => some 0x4#4 | '5' => some 0x5#4 | '6' => some 0x6#4 | '7' => some 0x7#4
  | '8' => some 0x8#4 | '9' => some 0x9#4 | 'A' => some 0xA#4 | 'B' => some 0xB#4
  | 'C' => some 0xC#4 | 'D' => some 0xD#4 | 'E' => some 0xE#4 | 'F' => some 0xF#4
  | _ => none

/-- The byte of exactly two hexadecimal digits, most significant first (R71, R74). -/
def byteOfHex : List Char → Option Byte
  | [h, l] =>
    match hexValue h, hexValue l with
    | some x, some y => some (x ++ y)
    | _, _ => none
  | _ => none

/-- The pieces of a text between the separators `c`. -/
def splitAtChar (c : Char) : List Char → List (List Char)
  | [] => [[]]
  | d :: rest =>
    if d = c then [] :: splitAtChar c rest
    else
      match splitAtChar c rest with
      | [] => [[d]]
      | t :: ts => (d :: t) :: ts

end Sys2Proof.Machine
end

