-- ==== Sys2Proof/Machine/BackingStore.lean ====
section
/-!
DEFINITION. The reference backing store, a textual key-value store outside the hardware block
(spec 20_memory.md R70 to R75). It says what "absent", "malformed" and "unreachable" mean; the core
sees only its replies.
-/

namespace Sys2Proof.Machine

/-- A store: keys and values are texts; the first entry of a key counts. -/
abbrev Store := List (List Char × List Char)

namespace Store

/-- The key of an address: `ram:` and its four digits, most significant first (R70). -/
def key (a : Addr) : List Char :=
  ['r', 'a', 'm', ':'] ++ hexByte (a.extractLsb' 8 8) ++ hexByte (a.extractLsb' 0 8)

/-- The value under a key. -/
def lookup : Store → List Char → Option (List Char)
  | [], _ => none
  | (k, v) :: st, x => if k = x then some v else lookup st x

/-- Create or overwrite the value under a key (R54, R72). -/
def set : Store → List Char → List Char → Store
  | [], x, v => [(x, v)]
  | (k, w) :: st, x, v => if k = x then (x, v) :: st else (k, w) :: set st x v

/-- The text has exactly `n` characters, each a digit of `[0-9A-F]` (R72, R74). -/
def validHex (n : Nat) (t : List Char) : Bool :=
  t.length == n && t.all fun c => (hexValue c).isSome

/-- The encoder's own check of the four digits of the address and the two of the value (R58, R72). -/
def encoderCheck (a : Addr) (v : Byte) : Bool :=
  validHex 4 ((key a).drop 4) && validHex 2 (hexByte v)

/-- What a write to the store ends in. -/
inductive Written where
  | stored (st : Store)
  /-- The store could not be reached (R57, R72). What it then holds is not said (U7; log 16). -/
  | unavailable
  /-- The encoder's check failed; it never does (R58, R72). -/
  | badEncoding
  deriving DecidableEq, Repr

/-- `write(address, value)`; `up` says that the store can be reached (R72). -/
def write (up : Bool) (a : Addr) (v : Byte) (st : Store) : Written :=
  if encoderCheck a v then
    if up then .stored (set st (key a) (hexByte v)) else .unavailable
  else .badEncoding

/-- `read(address)`: absent reads zero, a malformed value is corruption (R73, R74). -/
def read (up : Bool) (a : Addr) (st : Store) : ReadReply :=
  if up then
    match lookup st (key a) with
    | none => .byte 0x00#8
    | some t =>
      match byteOfHex t with
      | some b => .byte b
      | none => .corruption
  else .unavailable

end Store

end Sys2Proof.Machine
end

