-- ==== Sys2Proof/Machine/Interface.lean ====
section
/-!
DEFINITION. The outside of the core: the reset input (spec 70_reset_and_hazards.md R190), the
signals of a memory transaction and the outputs `halted` and `fault` (00_scope.md R18,
60_exceptions.md R182), and the debug trace (R103, R180).
-/

namespace Sys2Proof.Machine

/-- What happens next with the reset input: while `rst` is asserted the core holds the reset state
and issues no transaction; otherwise it takes a step (R190). -/
def tick (rst : Bool) (s : State) : Host.Outcome State Fault Refusal :=
  if rst then .next (applyReset s) else step s

/-- The code of a fault kind; 0 means no fault (R160). -/
def FaultKind.code : FaultKind → BitVec 3
  | .decodeError => 1#3
  | .memCorruption => 2#3
  | .memUnavailable => 3#3
  | .pcOverflow => 4#3

/-- The output `halted` (R18, R182). -/
def State.haltedOut (s : State) : Bool := s.status == .halted

/-- The output `fault` (R18, R182). -/
def State.faultOut (s : State) : BitVec 3 :=
  match s.status with
  | .running => 0#3
  | .halted => 0#3
  | .faulted k => k.code

/-- `mem_addr` of a request (R18, R107). -/
def Request.memAddr : Request → Addr
  | .read _ a => a
  | .write a _ => a

/-- `mem_re` of a request (R18). -/
def Request.memRe : Request → Bool
  | .read _ _ => true
  | .write _ _ => false

/-- `mem_we` of a request (R18). -/
def Request.memWe : Request → Bool
  | .read _ _ => false
  | .write _ _ => true

/-- `mem_wdata` of a write request (R18). -/
def Request.memWdata : Request → Option Byte
  | .read _ _ => none
  | .write _ v => some v

/-- What a completed transaction asked. -/
def Transaction.request : Transaction → Request
  | .read k a _ => .read k a
  | .write a v _ => .write a v

/-- `mem_addr` during a transaction (R18, R107). -/
def Transaction.memAddr (t : Transaction) : Addr := t.request.memAddr

/-- `mem_re` during a transaction (R18). -/
def Transaction.memRe (t : Transaction) : Bool := t.request.memRe

/-- `mem_we` during a transaction (R18). -/
def Transaction.memWe (t : Transaction) : Bool := t.request.memWe

/-- `mem_wdata` during a write (R18). -/
def Transaction.memWdata (t : Transaction) : Option Byte := t.request.memWdata

/-- `mem_rdata` at the end of a read that brought a byte (R18). -/
def Transaction.memRdata : Transaction → Option Byte
  | .read _ _ (.byte b) => some b
  | .read _ _ .corruption => none
  | .read _ _ .unavailable => none
  | .write _ _ _ => none

/-- `mem_err` at the end of a transaction: 0 no error, 1 corruption, 2 unavailable (R18). -/
def Transaction.memErr : Transaction → BitVec 2
  | .read _ _ (.byte _) => 0#2
  | .read _ _ .corruption => 1#2
  | .read _ _ .unavailable => 2#2
  | .write _ _ .done => 0#2
  | .write _ _ .unavailable => 2#2

/-- The current transaction on the interface at one of its two moments: issued and not answered, or
answered (R18; log 18). -/
inductive Current where
  | waiting (r : Request)
  | answered (t : Transaction)
  deriving DecidableEq, Repr

/-- What the current transaction asks; it stands on the interface at both moments. -/
def Current.request : Current → Request
  | .waiting r => r
  | .answered t => t.request

/-- `mem_done`: the memory has answered the current transaction (R18, R68). -/
def Current.memDone : Current → Bool
  | .waiting _ => false
  | .answered _ => true

/-- `mem_rdata`, once a read has been answered with a byte (R18). -/
def Current.memRdata : Current → Option Byte
  | .waiting _ => none
  | .answered t => t.memRdata

/-- `mem_err`, once the memory has answered (R18). -/
def Current.memErr : Current → Option (BitVec 2)
  | .waiting _ => none
  | .answered t => some t.memErr

/-- The current transaction of a core that the memory never answers (R68; log 6). -/
def Fault.current : Fault → Current
  | .memoryNeverAnswers pending => .waiting pending

/-- The four-character flag mask of the debug trace, in the order Z, N, C, V (R180). -/
def flagMask (f : Flags) : List Char :=
  [if f.z then 'Z' else '-', if f.n then 'N' else '-',
   if f.c then 'C' else '-', if f.v then 'V' else '-']

/-- What the per-step debug line reports; its layout is out of scope (R180). -/
structure TraceLine where
  pc : Addr
  regs : Vector Byte Config.nreg
  mask : List Char
  deriving DecidableEq, Repr

/-- The per-step debug line of a state, if `debug_en` is on. It reads the state only (R180; log 13). -/
def State.debugLine (debugEn : Bool) (s : State) : Option TraceLine :=
  if debugEn then some ⟨s.pc, s.regs, flagMask s.flags⟩ else none

/-- The byte a transaction brought to `fetch()`, if it belongs to one: the byte `fetch()` traces
(R103). A byte whose increment then raises `PcOverflow` counts as traced: where in `fetch()` the
trace is emitted is the model's choice (log 13). -/
def Transaction.fetched : Transaction → Option Byte
  | .read .instruction _ (.byte b) => some b
  | .read .immediate _ (.byte b) => some b
  | .read .instruction _ .corruption => none
  | .read .instruction _ .unavailable => none
  | .read .immediate _ .corruption => none
  | .read .immediate _ .unavailable => none
  | .read .data _ _ => none
  | .write _ _ _ => none

/-- The bytes `fetch()` has traced since reset, the newest first, if `debug_en` was on (R103). That
`debug_en` has one value from reset on is the model's choice (log 13). -/
def State.debugFetched (debugEn : Bool) (s : State) : List Byte :=
  if debugEn then s.bus.filterMap Transaction.fetched else []

end Sys2Proof.Machine
end

