-- ==== Sys2Proof/Machine/Loader.lean ====
section
/-!
DEFINITION. The program loader (spec 70_reset_and_hazards.md R195, R196; 30_encoding.md R97;
60_exceptions.md R166). It is outside the hardware block and acts before the first step only.
-/

namespace Sys2Proof.Machine

/-- Why no program is loaded. It is "fatal at startup, before the core begins executing" (R166, R196),
so no state comes with it: the core never observes a partially loaded memory (R196). -/
inductive LoadError where
  /-- The text has a token that is no hexadecimal byte pair (R97, R166). -/
  | malformed
  /-- The file cannot be read (R166). -/
  | inaccessible
  /-- There are more bytes than cells (log 15). -/
  | tooLong
  /-- The memory did not accept the write of this cell (R54, R57, R195). -/
  | memUnavailable (addr : Addr)
  /-- The memory never answers the write of this cell (R68, R195; log 6). -/
  | memoryNeverAnswers (addr : Addr)
  deriving DecidableEq, Repr

/-- What loading ends in. -/
inductive Loaded where
  | ready (s : State)
  | failed (why : LoadError)
  deriving DecidableEq, Repr

/-- The loader's first form: a sequence of (address, byte) pairs, each written through the contract
the core writes through (R54, R195). -/
def loadCells : List (Addr × Byte) → State → Loaded
  | [], s => .ready s
  | (a, v) :: cells, s =>
    match writeContract a v s with
    | some (.done, s1) => loadCells cells s1
    | some (.unavailable, _) => .failed (.memUnavailable a)
    | none => .failed (.memoryNeverAnswers a)

/-- Bytes as the cells from `at0` upward, in order. -/
def cellsFrom (at0 : Nat) : List Byte → List (Addr × Byte)
  | [] => []
  | b :: bytes => (BitVec.ofNat 16 at0, b) :: cellsFrom (at0 + 1) bytes

/-- Bytes loaded "starting at address 0 in file order" (R97, R195). That more bytes than there are
cells are a load error, found before the first write, is the model's choice (log 15). -/
def loadBytes (bytes : List Byte) (s : State) : Loaded :=
  if bytes.length ≤ 65536 then loadCells (cellsFrom 0 bytes) s else .failed .tooLong

/-- The bytes of a list of tokens; `none` if a token is no hexadecimal byte pair. -/
def bytesOfTokens : List (List Char) → Option (List Byte)
  | [] => some []
  | t :: ts =>
    if t = [] then bytesOfTokens ts
    else
      match byteOfHex t, bytesOfTokens ts with
      | some b, some bs => some (b :: bs)
      | _, _ => none

/-- The bytes of one line: what stands before `#`, cut at the spaces (R97; log 15). -/
def bytesOfLine (line : List Char) : Option (List Byte) :=
  bytesOfTokens (splitAtChar ' ' (line.takeWhile (· != '#')))

/-- One line of the text form for some bytes: their hexadecimal pairs, a space between (R97). -/
def lineOfBytes : List Byte → List Char
  | [] => []
  | [b] => hexByte b
  | b :: bs => hexByte b ++ ' ' :: lineOfBytes bs

/-- The bytes of a list of lines, in order. -/
def bytesOfLines : List (List Char) → Option (List Byte)
  | [] => some []
  | l :: ls =>
    match bytesOfLine l, bytesOfLines ls with
    | some b, some bs => some (b ++ bs)
    | _, _ => none

/-- Lines as a text: a newline between each and the next. -/
def textOfLines : List (List Char) → List Char
  | [] => []
  | [l] => l
  | l :: ls => l ++ '\n' :: textOfLines ls

/-- The loader's second form: a text of lines of hexadecimal byte pairs (R97, R166, R195). R97 does
not say what ends a line nor whether a line may have no byte: that LF alone ends a line, so that a
CR belongs to the token before it, and that an empty line and a line with only a comment give no
byte, is the model's choice (log 15). The spec does not say which error is met first where several
could be: that the whole text is read, and its length checked, before the first write, so that
`malformed` and `tooLong` come before any error of the memory, is the model's choice too (log 15). -/
def loadText (text : List Char) (s : State) : Loaded :=
  match bytesOfLines (splitAtChar '\n' text) with
  | some bytes => loadBytes bytes s
  | none => .failed .malformed

/-- Loading a file; `none` is a file that cannot be read (R166). -/
def loadFile (file : Option (List Char)) (s : State) : Loaded :=
  match file with
  | some text => loadText text s
  | none => .failed .inaccessible

end Sys2Proof.Machine
end

