-- ==== Sys2Proof/Safety.lean ====
section
/-!
DEFINITION. The terms in which statements speak of states and runs: invariants of the machine, a
memory that answers, the record of fetches, and a run that ends well (spec 40_fetch_step.md R112,
R113; 43_alu.md R147; 60_exceptions.md R168).
-/

namespace Sys2Proof.Machine

/-- The fault record is there exactly in a faulted state, with the status's kind, and a
`PcOverflow` leaves `pc` at 0xFFFF (R36, R160, R161, R163). -/
def State.RecordMatches (s : State) : Prop :=
  match s.status with
  | .running => s.faultInfo = none
  | .halted => s.faultInfo = none
  | .faulted k =>
    s.faultInfo.map FaultInfo.kind = some k ∧ (k = .pcOverflow → s.pc = 0xFFFF#16)

/-- The invariant of the machine: memory in its canonical form, the fault record matching the
status. -/
def State.Inv (s : State) : Prop := Memory.wf s.mem = true ∧ s.RecordMatches

/-- The address of a completed fetch, if the transaction is one. -/
def Transaction.fetchAddr (t : Transaction) : Option Addr :=
  t.fetched.map fun _ => t.memAddr

/-- The addresses of the completed fetches since reset, the newest first. -/
def State.fetchTrail (s : State) : List Addr := s.bus.filterMap Transaction.fetchAddr

/-- The addresses below `n`, from the highest down. -/
def addrsBelow : Nat → List Addr
  | 0 => []
  | n + 1 => BitVec.ofNat 16 n :: addrsBelow n

/-- Every address below `pc` was fetched once, in rising order, and nothing else; after a
`PcOverflow` 0xFFFF was fetched as well (R112). -/
def State.FetchedInOrder (s : State) : Prop :=
  s.fetchTrail = addrsBelow s.pc.toNat ∨
    s.status = .faulted .pcOverflow ∧ s.pc = 0xFFFF#16 ∧ s.fetchTrail = addrsBelow 65536

/-- The memory answers every transaction, with a byte or an error (R68's assumption). -/
def State.MemoryAnswers (s : State) : Prop :=
  ReadAnswer.never ∉ s.readAnswers ∧ WriteAnswer.never ∉ s.writeAnswers

/-- The next `n` reads are answered with the cell's byte. -/
def State.ReadsOk (n : Nat) (s : State) : Prop := ∀ a ∈ s.readAnswers.take n, a = ReadAnswer.ok

/-- The next `n` writes are done. -/
def State.WritesOk (n : Nat) (s : State) : Prop := ∀ a ∈ s.writeAnswers.take n, a = WriteAnswer.ok

/-- The byte the next fetch reads, if the memory answers. -/
def State.nextByte (s : State) : Byte := Memory.read s.mem s.pc

/-- The machine runs, `pc` can be incremented, and the next `n` reads bring their bytes: what a
step needs to reach its `execute()` with `n` reads (R100, R102). -/
def State.CanFetch (n : Nat) (s : State) : Prop :=
  s.status = .running ∧ s.pc ≠ 0xFFFF#16 ∧ s.ReadsOk n

/-- The state in which an instruction of `n` bytes is executed: its first byte is in `ir`, `pc` is
one past it, and the read of the first byte (and of an immediate, if `n` is 2) is done (R102,
R110; log 9). -/
def State.afterFetch (n : Nat) (s : State) : State :=
  { s with
    ir := s.nextByte
    pc := s.pc + 1#16
    readAnswers := s.readAnswers.drop n
    bus :=
      (if n = 2 then
        [.read .immediate (s.pc + 1#16) (.byte (Memory.read s.mem (s.pc + 1#16)))] else []) ++
      .read .instruction s.pc (.byte s.nextByte) :: s.bus }

/-- The number of the register an instruction writes, if it writes one (R23). -/
def destNumber : Instr → Option Nat
  | .nop _ => none
  | .ldi d _ => some d.number
  | .ldx d => some d.number
  | .stx _ => none
  | .add => some 0
  | .adc => some 0
  | .movin p _ => some p.reg.number
  | .movout _ d => some d.number
  | .halt _ => none

/-- The two operands put where ADD and ADC read them. -/
def State.withAluOperands (a b : Byte) (s : State) : State := (s.setReg aluA a).setReg aluB b

/-- Add two numbers byte by byte, the least significant bytes first: ADD for the first pair if
`first` says so, ADC for every other; the result bytes and the last state (R147). -/
def addBytes (first : Bool) : List (Byte × Byte) → State → Option (List Byte × State)
  | [], s => some ([], s)
  | (a, b) :: rest, s =>
    match exec (if first then .add else .adc) (s.withAluOperands a b) with
    | .next t =>
      match addBytes false rest t with
      | some (bs, u) => some (t.reg aluDst :: bs, u)
      | none => none
    | .fault _ => none
    | .refused _ => none

/-- The unsigned number of a list of bytes, the least significant first (R147). -/
def numberOf : List Byte → Nat
  | [] => 0
  | b :: bs => b.toNat + 256 * numberOf bs

/-- An unsigned number below `256 ^ k` read as a two's-complement number of `8 k` bits (R147). -/
def signedOf (k n : Nat) : Int := if 2 * n < 256 ^ k then n else (n : Int) - 256 ^ k

/-- The store holds what the memory holds (R55, R75). -/
def StoreHolds (st : Store) (m : List Host.Cell) : Prop :=
  ∀ a, Store.read true a st = .byte (Memory.read m a)

/-- A safe run: within `k` steps the machine has halted, with no fault (R113, R169). -/
def HaltsWithin (k : Nat) (s : State) : Prop :=
  ∃ t, Host.Core.run Sys2Proof.core k s = .next t ∧ t.status = .halted

end Sys2Proof.Machine
end

