-- ==== Sys2Proof/Certificates/Slice0/Obligations.lean ====
section
/-!
DEFINITION. The statements for the provers. Each docstring names the rule of the spec it
formalises. Where it says "the spec's own decision D<n>", the rule it follows is one the spec marks
as its decision (92_eei_decisions.md); where it says "log <n>", it speaks of the model's own choice.
The fields `readAnswers`, `writeAnswers`, `bus` and `freeDraws`, wherever a statement gives their
values, are the model's way to hold the memory's answers (R53, R54; log 5), the transactions of a
step (R110; log 8) and the free values used (U7; log 7).
-/

open Sys2Proof Sys2Proof.Machine

/-! ### Encoding -/

/-- Decoding the bytes of any instruction of this hardware gives it back, with every operand at
every value, and returns the bytes after it untouched (30_encoding.md R82, R88). -/
def Obligations.DecodeOfEncodeIsTheInstr : Prop :=
  ∀ (i : Instr) (rest : List Byte), i.wf = true → decode (encode i ++ rest) = .accepted (i, rest)

/-- One meaning per byte (R92): whatever the decoder accepts is an instruction of this hardware, and
the bytes it took are that instruction's only encoding. -/
def Obligations.EncodeOfDecodeIsTheBytes : Prop :=
  ∀ (bytes rest : List Byte) (i : Instr),
    decode bytes = .accepted (i, rest) → i.wf = true ∧ encode i ++ rest = bytes

/-- Words written out bit by bit from the encodings of spec/opcode_table.json decode to the
instructions they stand for. -/
def Obligations.WrittenWordsDecode : Prop :=
  decode [0b00000000#8] = .accepted (.nop 0x0#4, []) ∧
  decode [0b00010010#8, 0b11110000#8] = .accepted (.ldi .r2 0xF0#8, []) ∧
  decode [0b00100001#8] = .accepted (.ldx .r1, []) ∧
  decode [0b00110011#8] = .accepted (.stx .r3, []) ∧
  decode [0b01000000#8] = .accepted (.add, []) ∧
  decode [0b01000001#8] = .accepted (.adc, []) ∧
  decode [0b01101010#8] = .accepted (.movin .p1 .r2, []) ∧
  decode [0b01110011#8] = .accepted (.movout .p0 .r3, []) ∧
  decode [0b11110111#8] = .accepted (.halt 0x7#4, [])

/-- The opcode map of R88 (the spec's own decisions D1, D4, D5, D8, D9, D10), row by row, for
`NREG = 4` and for `NREG = 8`, with the counts of legal first bytes. -/
def Obligations.OpcodeMapIsComplete : Prop :=
  (∀ nreg ∈ [4, 8],
    (∀ u : Nibble, decodeFirst nreg (0x0#4 ++ u) = .accepted (.whole (.nop u))) ∧
    (∀ r : Reg, r.number < nreg →
      decodeFirst nreg (BitVec.ofNat 8 (0x10 + r.number)) = .accepted (.ldi r) ∧
      decodeFirst nreg (BitVec.ofNat 8 (0x20 + r.number)) = .accepted (.whole (.ldx r)) ∧
      decodeFirst nreg (BitVec.ofNat 8 (0x30 + r.number)) = .accepted (.whole (.stx r)) ∧
      decodeFirst nreg (BitVec.ofNat 8 (0x60 + r.number)) = .accepted (.whole (.movin .p0 r)) ∧
      decodeFirst nreg (BitVec.ofNat 8 (0x68 + r.number)) = .accepted (.whole (.movin .p1 r)) ∧
      decodeFirst nreg (BitVec.ofNat 8 (0x70 + r.number)) = .accepted (.whole (.movout .p0 r)) ∧
      decodeFirst nreg (BitVec.ofNat 8 (0x78 + r.number)) = .accepted (.whole (.movout .p1 r))) ∧
    (∀ n : Nat, nreg ≤ n → n < 16 →
      illegal nreg (BitVec.ofNat 8 (0x10 + n)) = true ∧
      illegal nreg (BitVec.ofNat 8 (0x20 + n)) = true ∧
      illegal nreg (BitVec.ofNat 8 (0x30 + n)) = true) ∧
    (∀ n : Nat, nreg ≤ n → n < 8 →
      illegal nreg (BitVec.ofNat 8 (0x60 + n)) = true ∧
      illegal nreg (BitVec.ofNat 8 (0x68 + n)) = true ∧
      illegal nreg (BitVec.ofNat 8 (0x70 + n)) = true ∧
      illegal nreg (BitVec.ofNat 8 (0x78 + n)) = true) ∧
    decodeFirst nreg 0x40#8 = .accepted (.whole .add) ∧
    decodeFirst nreg 0x41#8 = .accepted (.whole .adc) ∧
    (∀ b : Byte, 0x42 ≤ b.toNat → b.toNat ≤ 0x5F → illegal nreg b = true) ∧
    (∀ b : Byte, 0x80 ≤ b.toNat → b.toNat ≤ 0xEF → illegal nreg b = true) ∧
    (∀ u : Nibble, decodeFirst nreg (0xF#4 ++ u) = .accepted (.whole (.halt u)))) ∧
  ((List.range 256).filter fun n => !illegal 4 (BitVec.ofNat 8 n)).length = 62 ∧
  ((List.range 256).filter fun n => illegal 4 (BitVec.ofNat 8 n)).length = 194 ∧
  ((List.range 256).filter fun n => !illegal 8 (BitVec.ofNat 8 n)).length = 90 ∧
  ((List.range 256).filter fun n => illegal 8 (BitVec.ofNat 8 n)).length = 166

/-- A byte is illegal exactly where the formula of R106 (which the spec derives from R88 and R93)
says so, for both legal values of `NREG`. -/
def Obligations.IllegalBytesAreThoseOfTheFormula : Prop :=
  ∀ nreg ∈ [4, 8], ∀ b : Byte,
    let o := b.toNat / 16
    let n := b.toNat % 16
    illegal nreg b = true ↔
      o ∈ [0x5, 0x8, 0x9, 0xA, 0xB, 0xC, 0xD, 0xE] ∨
      o ∈ [0x1, 0x2, 0x3] ∧ nreg ≤ n ∨
      o = 0x4 ∧ 2 ≤ n ∨
      o ∈ [0x6, 0x7] ∧ nreg ≤ n % 8

/-! ### Reset -/

/-- The state after reset (R42; `ir` and the record by the spec's own decision D14): all registers
and flags zero, `pc` 0x0000, Running, no fault record; every cell of a memory to which nothing was
written reads 0x00 (R43); the event of reset leaves memory alone, and the first fetch after it is of
address 0x0000. -/
def Obligations.ResetLeavesTheStatedValues : Prop :=
  (∀ j, State.reset.reg j = 0x00#8) ∧
  State.reset.pc = 0x0000#16 ∧
  State.reset.ir = 0x00#8 ∧
  State.reset.flags = ⟨false, false, false, false⟩ ∧
  pack State.reset.flags = 0x00#8 ∧
  State.reset.status = .running ∧
  State.reset.faultInfo = none ∧
  (∀ a, Memory.read State.reset.mem a = 0x00#8) ∧
  ∀ s : State, ∃ t, tick true s = .next t ∧ t.mem = s.mem ∧
    ∀ u, step t = .next u → ∃ (reply : ReadReply) (later : List Transaction),
      u.bus = later ++ [.read .instruction 0x0000#16 reply]

/-- Applying reset again (R190, R191; the spec's own decision D15): while `rst` is asserted the core
holds the reset state whatever its status was, the fault record is cleared, no transaction is
issued, and memory keeps every byte. That the record of transactions starts anew is the model's
(log 14). -/
def Obligations.ResetEventRestoresCoreAndKeepsMemory : Prop :=
  ∀ s : State, tick true s = .next
    { State.reset with
      mem := s.mem
      readAnswers := s.readAnswers
      writeAnswers := s.writeAnswers
      freeDraws := s.freeDraws }

/-- The invariant holds right after reset. -/
def Obligations.InvHoldsAtReset : Prop := State.reset.Inv

/-- Every step keeps the invariant: memory in its canonical form, and a fault record exactly in a
faulted state, of the status's kind, with `pc` at 0xFFFF after a `PcOverflow` (R36, R161, R163). -/
def Obligations.EveryStepKeepsInv : Prop :=
  ∀ s t : State, s.Inv → step s = .next t → t.Inv

/-- Right after reset the record of fetches is in order. -/
def Obligations.FetchOrderHoldsAtReset : Prop := State.reset.FetchedInOrder

/-- Every step keeps the order of fetches (R112, which the spec derives from R102, R104 and R26):
the addresses fetched since reset are 0, 1, 2, … with no gap and no repeat. -/
def Obligations.EveryStepKeepsFetchOrder : Prop :=
  ∀ s t : State, s.FetchedInOrder → step s = .next t → t.FetchedInOrder

/-! ### Fetch, the incrementer, the step -/

/-- The incrementer and `PcOverflow` (R104, R163; the spec's own decision D3). -/
def Obligations.IncrementAtTheTopOverflows : Prop :=
  (∀ w p, p ≠ 0xFFFF#16 → inc w p = some (p + 1#16)) ∧
  inc .fault 0xFFFF#16 = none ∧
  inc .wrap 0xFFFF#16 = some 0x0000#16 ∧
  (∀ s : State, s.status = .running → s.pc = 0xFFFF#16 → s.ReadsOk 1 →
    step s = .next
      { s with
        ir := Memory.read s.mem 0xFFFF#16
        status := .faulted .pcOverflow
        faultInfo := some (.pcOverflow 0xFFFF#16)
        readAnswers := s.readAnswers.drop 1
        bus := .read .instruction 0xFFFF#16 (.byte (Memory.read s.mem 0xFFFF#16)) :: s.bus }) ∧
  (∀ (s : State) (j : Fin Config.nreg), s.CanFetch 2 → s.pc = 0xFFFE#16 →
    s.nextByte = BitVec.ofNat 8 (0x10 + j.val) →
    step s = .next
      { s with
        ir := Memory.read s.mem 0xFFFF#16
        pc := 0xFFFF#16
        status := .faulted .pcOverflow
        faultInfo := some (.pcOverflow 0xFFFF#16)
        readAnswers := s.readAnswers.drop 2
        bus := .read .immediate 0xFFFF#16 (.byte (Memory.read s.mem 0xFFFF#16)) ::
          .read .instruction 0xFFFE#16 (.byte s.nextByte) :: s.bus })

/-- `fetch()` (R102): the byte read goes into `ir`, then `pc` is incremented; a failed read leaves
both; an overflow leaves the byte in `ir` and `pc` at 0xFFFF; nothing else is written (beside the
model's own record of the transaction). -/
def Obligations.FetchLatchesThenIncrements : Prop :=
  ∀ (kind : ReadKind) (s : State),
    (∀ rest, s.ReadsOk 1 → rest = s.readAnswers.drop 1 →
      let b := Memory.read s.mem s.pc
      let bus := .read kind s.pc (.byte b) :: s.bus
      (s.pc ≠ 0xFFFF#16 →
        fetch kind s =
          .value b { s with ir := b, pc := s.pc + 1#16, readAnswers := rest, bus := bus }) ∧
      (s.pc = 0xFFFF#16 →
        fetch kind s = .raised
          { s with
            ir := b
            status := .faulted .pcOverflow
            faultInfo := some (.pcOverflow 0xFFFF#16)
            readAnswers := rest
            bus := bus })) ∧
    (∀ rest, s.readAnswers = .corruption :: rest →
      fetch kind s = .raised
        { s with
          status := .faulted .memCorruption
          faultInfo := some (.memCorruption s.pc kind)
          readAnswers := rest
          bus := .read kind s.pc .corruption :: s.bus }) ∧
    (∀ rest, s.readAnswers = .unavailable :: rest →
      fetch kind s = .raised
        { s with
          status := .faulted .memUnavailable
          faultInfo := some (.memUnavailable s.pc .read)
          readAnswers := rest
          bus := .read kind s.pc .unavailable :: s.bus })

/-- A step runs the decoded instruction (R100, R105): where the bytes at `pc` decode to `i`, the
step is `exec i` in the state after the instruction byte was fetched and, for an LDI, its immediate
read (log 9). -/
def Obligations.StepRunsTheDecodedInstr : Prop :=
  ∀ (s : State) (i : Instr) (rest : List Byte),
    decode [s.nextByte, Memory.read s.mem (s.pc + 1#16)] = .accepted (i, rest) →
    s.CanFetch i.length → step s = exec i (s.afterFetch i.length)

/-- The transactions of a step (R110, which the spec derives): the first is the read of the
instruction byte at `pc`; there is at most one more, which is LDI's read at `pc + 1`, LDX's read or
STX's write at the indirect address of the registers before the step. -/
def Obligations.StepIssuesOneOrTwoTransactions : Prop :=
  ∀ s t : State, s.status = .running → step s = .next t →
    ∃ reply, t.bus = .read .instruction s.pc reply :: s.bus ∨
      ∃ second, t.bus = second :: .read .instruction s.pc reply :: s.bus ∧
        ((∃ j : Fin Config.nreg, s.nextByte = BitVec.ofNat 8 (0x10 + j.val)) ∧
            (∃ r, second = .read .immediate (s.pc + 1#16) r) ∨
          (∃ j : Fin Config.nreg, s.nextByte = BitVec.ofNat 8 (0x20 + j.val)) ∧
            (∃ r, second = .read .data s.indAddr r) ∨
          (∃ j : Fin Config.nreg, s.nextByte = BitVec.ofNat 8 (0x30 + j.val) ∧
            ∃ r, second = .write s.indAddr (s.reg j) r))

/-- `DecodeError` (R162, R93; the spec's own decision D13): an illegal byte faults before any other
effect of `execute()`; an illegal LDI does not read its immediate. -/
def Obligations.IllegalByteRaisesDecodeError : Prop :=
  ∀ s : State, s.CanFetch 1 → illegal Config.nreg s.nextByte = true →
    step s = .next
      { s with
        ir := s.nextByte
        pc := s.pc + 1#16
        status := .faulted .decodeError
        faultInfo := some (.decodeError s.nextByte s.pc)
        readAnswers := s.readAnswers.drop 1
        bus := .read .instruction s.pc (.byte s.nextByte) :: s.bus }

/-- A core that is not Running does nothing (R37, which the spec derives from R35 and R36); that the
model's step answers the same state, rather than none, is log 4. -/
def Obligations.StoppedCoreDoesNothing : Prop :=
  ∀ s : State, s.status ≠ .running → step s = .next s

/-- Only HALT sets Halted, Halted and Faulted are terminal, a faulted core is not halted, and only
reset returns the core to Running (R35, R36; the spec's own decision D12). -/
def Obligations.OnlyHaltHaltsAndOnlyResetResumes : Prop :=
  (∀ s t : State, step s = .next t → t.status = .halted → s.status ≠ .halted →
    s.status = .running ∧ ∃ u : Nibble, s.nextByte = 0xF#4 ++ u) ∧
  (∀ s t : State, step s = .next t → s.status ≠ .running →
    t.status = s.status ∧ t.faultInfo = s.faultInfo ∧ t.bus = s.bus) ∧
  (∀ (s : State) (k : FaultKind), s.status = .faulted k → s.haltedOut = false) ∧
  (∀ s t : State, tick true s = .next t → t.status = .running)

/-! ### The instructions -/

/-- NOP (R120): no state change by `execute()`, whatever the operand; the step's fetch is the whole
effect. -/
def Obligations.NopOnlyFetches : Prop :=
  ∀ (u : Nibble) (s : State),
    exec (.nop u) s = .next s ∧
    (s.CanFetch 1 → s.nextByte = 0x0#4 ++ u → step s = .next (s.afterFetch 1))

/-- HALT (R122): the status becomes Halted, whatever the operand; everything else keeps the value
the step's fetch left, and no further fetch or execute occurs. That the step of the halted core
answers the same state, rather than none, is the model's (log 4). -/
def Obligations.HaltStopsTheCore : Prop :=
  ∀ (u : Nibble) (s : State),
    exec (.halt u) s = .next { s with status := .halted } ∧
    (s.CanFetch 1 → s.nextByte = 0xF#4 ++ u →
      step s = .next { s.afterFetch 1 with status := .halted } ∧
      step { s.afterFetch 1 with status := .halted } =
        .next { s.afterFetch 1 with status := .halted })

/-- LDI (R131): the immediate goes through `ir` to the register, `pc` moves past it; a failed read
of it or an overflow of `pc` leaves the register unwritten. -/
def Obligations.LdiLoadsTheImmediate : Prop :=
  (∀ (d : Reg) (j : Fin Config.nreg) (imm : Byte) (s : State),
    d.number = j.val → s.pc ≠ 0xFFFF#16 →
    exec (.ldi d imm) s =
      .next { s with regs := s.regs.set j imm, ir := imm, pc := s.pc + 1#16 }) ∧
  (∀ (d : Reg) (j : Fin Config.nreg) (imm : Byte) (s : State),
    d.number = j.val → s.pc = 0xFFFF#16 →
    exec (.ldi d imm) s = .next
      { s with
        ir := imm, status := .faulted .pcOverflow, faultInfo := some (.pcOverflow 0xFFFF#16) }) ∧
  (∀ (j : Fin Config.nreg) (s : State),
    s.nextByte = BitVec.ofNat 8 (0x10 + j.val) →
    let imm := Memory.read s.mem (s.pc + 1#16)
    (s.CanFetch 2 → s.pc ≠ 0xFFFE#16 →
      step s = .next
        { s.afterFetch 2 with regs := s.regs.set j imm, ir := imm, pc := s.pc + 2#16 }) ∧
    (s.CanFetch 2 → s.pc = 0xFFFE#16 →
      step s = .next
        { s.afterFetch 2 with
          ir := imm, status := .faulted .pcOverflow, faultInfo := some (.pcOverflow 0xFFFF#16) }) ∧
    (∀ rest, s.CanFetch 1 → s.readAnswers = .ok :: .corruption :: rest →
      step s = .next
        { s.afterFetch 1 with
          status := .faulted .memCorruption
          faultInfo := some (.memCorruption (s.pc + 1#16) .immediate)
          readAnswers := rest
          bus := .read .immediate (s.pc + 1#16) .corruption :: (s.afterFetch 1).bus }) ∧
    (∀ rest, s.CanFetch 1 → s.readAnswers = .ok :: .unavailable :: rest →
      step s = .next
        { s.afterFetch 1 with
          status := .faulted .memUnavailable
          faultInfo := some (.memUnavailable (s.pc + 1#16) .read)
          readAnswers := rest
          bus := .read .immediate (s.pc + 1#16) .unavailable :: (s.afterFetch 1).bus })) ∧
  (∀ r : Reg, decodeFirst 8 (BitVec.ofNat 8 (0x10 + r.number)) = .accepted (.ldi r))

/-- LDX (R132; the address registers are the spec's own decision D6): the byte at the indirect
address of the registers before the step goes to the register; a failed read leaves it. -/
def Obligations.LdxLoadsFromTheIndirectAddress : Prop :=
  (∀ (d : Reg) (j : Fin Config.nreg) (s : State), d.number = j.val → s.ReadsOk 1 →
    let a : Addr := ((s.reg 2).setWidth 16 <<< 4) ||| (s.reg 3).setWidth 16
    let v := Memory.read s.mem a
    exec (.ldx d) s = .next
      { s with
        regs := s.regs.set j v
        readAnswers := s.readAnswers.drop 1
        bus := .read .data a (.byte v) :: s.bus }) ∧
  (∀ (j : Fin Config.nreg) (s : State),
    s.nextByte = BitVec.ofNat 8 (0x20 + j.val) →
    let a : Addr := ((s.reg 2).setWidth 16 <<< 4) ||| (s.reg 3).setWidth 16
    let v := Memory.read s.mem a
    (s.CanFetch 2 →
      step s = .next
        { s.afterFetch 1 with
          regs := s.regs.set j v
          readAnswers := s.readAnswers.drop 2
          bus := .read .data a (.byte v) :: (s.afterFetch 1).bus }) ∧
    (∀ rest, s.CanFetch 1 → s.readAnswers = .ok :: .corruption :: rest →
      step s = .next
        { s.afterFetch 1 with
          status := .faulted .memCorruption
          faultInfo := some (.memCorruption a .data)
          readAnswers := rest
          bus := .read .data a .corruption :: (s.afterFetch 1).bus }) ∧
    (∀ rest, s.CanFetch 1 → s.readAnswers = .ok :: .unavailable :: rest →
      step s = .next
        { s.afterFetch 1 with
          status := .faulted .memUnavailable
          faultInfo := some (.memUnavailable a .read)
          readAnswers := rest
          bus := .read .data a .unavailable :: (s.afterFetch 1).bus })) ∧
  (∀ r : Reg, decodeFirst 8 (BitVec.ofNat 8 (0x20 + r.number)) = .accepted (.whole (.ldx r)))

/-- STX (R133; the address registers are the spec's own decision D6): the register goes to the cell
at the indirect address; no register and no flag changes. After a write the memory did not accept,
the one cell holds a free value (U7, log 7), and nothing else has changed but the fault's entry. -/
def Obligations.StxStoresAtTheIndirectAddress : Prop :=
  (∀ (r : Reg) (j : Fin Config.nreg) (s : State), r.number = j.val → s.WritesOk 1 →
    let a : Addr := ((s.reg 2).setWidth 16 <<< 4) ||| (s.reg 3).setWidth 16
    exec (.stx r) s = .next
      { s with
        mem := Memory.write s.mem a (s.reg j)
        writeAnswers := s.writeAnswers.drop 1
        bus := .write a (s.reg j) .done :: s.bus }) ∧
  (∀ (j : Fin Config.nreg) (s : State), s.CanFetch 1 →
    s.nextByte = BitVec.ofNat 8 (0x30 + j.val) →
    let a : Addr := ((s.reg 2).setWidth 16 <<< 4) ||| (s.reg 3).setWidth 16
    (s.WritesOk 1 →
      step s = .next
        { s.afterFetch 1 with
          mem := Memory.write s.mem a (s.reg j)
          writeAnswers := s.writeAnswers.drop 1
          bus := .write a (s.reg j) .done :: (s.afterFetch 1).bus }) ∧
    (∀ rest, s.writeAnswers = .unavailable :: rest →
      ∃ v : Byte, step s = .next
        { s.afterFetch 1 with
          mem := Memory.write s.mem a v
          status := .faulted .memUnavailable
          faultInfo := some (.memUnavailable a .write)
          writeAnswers := rest
          freeDraws := s.freeDraws + 1
          bus := .write a (s.reg j) .unavailable :: (s.afterFetch 1).bus })) ∧
  (∀ r : Reg, decodeFirst 8 (BitVec.ofNat 8 (0x30 + r.number)) = .accepted (.whole (.stx r)))

/-- ADD (R141; the registers and the byte are the spec's own decisions D7, D8): R0 becomes the sum
of R0 and R1, all four flags are written, the incoming C is ignored. -/
def Obligations.AddSumsR0AndR1 : Prop :=
  ∀ s : State,
    let r := aluResult (s.reg 0) (s.reg 1) false
    let f := aluFlags (s.reg 0) (s.reg 1) false
    exec .add s = .next { s with regs := s.regs.set 0 r, flags := f } ∧
    (s.CanFetch 1 → s.nextByte = 0x40#8 →
      step s = .next { s.afterFetch 1 with regs := s.regs.set 0 r, flags := f })

/-- ADC (R142; the registers and the byte are the spec's own decisions D7, D8): as ADD, with the C
from before the instruction as carry-in. -/
def Obligations.AdcSumsR0R1AndCarry : Prop :=
  ∀ s : State,
    let r := aluResult (s.reg 0) (s.reg 1) s.flags.c
    let f := aluFlags (s.reg 0) (s.reg 1) s.flags.c
    exec .adc s = .next { s with regs := s.regs.set 0 r, flags := f } ∧
    (s.CanFetch 1 → s.nextByte = 0x41#8 →
      step s = .next { s.afterFetch 1 with regs := s.regs.set 0 r, flags := f })

/-- MOVIN (R150; the primary registers and the layout are the spec's own decision D9): a register is
copied to R0 or R1. -/
def Obligations.MovinCopiesToAPrimary : Prop :=
  (∀ (r : Reg) (j : Fin Config.nreg) (s : State), r.number = j.val →
    exec (.movin .p0 r) s = .next { s with regs := s.regs.set 0 (s.reg j) } ∧
    exec (.movin .p1 r) s = .next { s with regs := s.regs.set 1 (s.reg j) }) ∧
  (∀ (j : Fin Config.nreg) (s : State), s.CanFetch 1 →
    (s.nextByte = BitVec.ofNat 8 (0x60 + j.val) →
      step s = .next { s.afterFetch 1 with regs := s.regs.set 0 (s.reg j) }) ∧
    (s.nextByte = BitVec.ofNat 8 (0x68 + j.val) →
      step s = .next { s.afterFetch 1 with regs := s.regs.set 1 (s.reg j) }))

/-- MOVOUT (R151; the primary registers and the layout are the spec's own decision D9): R0 or R1 is
copied to a register. -/
def Obligations.MovoutCopiesFromAPrimary : Prop :=
  (∀ (d : Reg) (j : Fin Config.nreg) (s : State), d.number = j.val →
    exec (.movout .p0 d) s = .next { s with regs := s.regs.set j (s.reg 0) } ∧
    exec (.movout .p1 d) s = .next { s with regs := s.regs.set j (s.reg 1) }) ∧
  (∀ (j : Fin Config.nreg) (s : State), s.CanFetch 1 →
    (s.nextByte = BitVec.ofNat 8 (0x70 + j.val) →
      step s = .next { s.afterFetch 1 with regs := s.regs.set j (s.reg 0) }) ∧
    (s.nextByte = BitVec.ofNat 8 (0x78 + j.val) →
      step s = .next { s.afterFetch 1 with regs := s.regs.set j (s.reg 1) }))

/-- A move between the two primary registers has two encodings with one effect (R153 case 5, which
the spec derives from R150 and R151). -/
def Obligations.MovesBetweenPrimariesAgree : Prop :=
  ∀ (p q : Primary) (s : State), exec (.movin p q.reg) s = exec (.movout q p.reg) s

/-- An instruction that names a register the machine does not have is illegal (R22, R86): executing
it would raise `DecodeError`. The decoder never gives one; what `exec` does with it is the model's
(log 10). -/
def Obligations.IllFormedInstrRaisesDecodeError : Prop :=
  ∀ (i : Instr) (s : State), i.wf = false →
    exec i s = .next
      { s with
        status := .faulted .decodeError
        faultInfo := some (.decodeError s.ir (s.pc - 1#16)) }

/-! ### The ALU -/

/-- The ALU function (R140), said of numbers and bits: the sum in the integers, its low eight bits,
and the four flags. -/
def Obligations.AluResultAndFlagsAreExact : Prop :=
  ∀ (a b : Byte) (c : Bool),
    let sum := a.toNat + b.toNat + (if c then 1 else 0)
    let r := aluResult a b c
    let f := aluFlags a b c
    r.toNat = sum % 256 ∧
    (f.z = true ↔ sum % 256 = 0) ∧
    (f.n = true ↔ 128 ≤ sum % 256) ∧
    (f.c = true ↔ 255 < sum) ∧
    (f.v = true ↔ a.getLsbD 7 = b.getLsbD 7 ∧ a.getLsbD 7 ≠ r.getLsbD 7)

/-- What the flags mean (R143, which the spec derives from R140; two's complement is the spec's
passage G3): V says that the sum of the signed readings does not fit in a signed byte, N that the
result is negative, C that the unsigned sum is 0x100 more than the result; Z and N exclude each
other. -/
def Obligations.FlagsMeanSignAndOverflow : Prop :=
  ∀ (a b : Byte) (c : Bool),
    let f := aluFlags a b c
    let r := aluResult a b c
    let carry : Int := if c then 1 else 0
    (f.v = true ↔ a.toInt + b.toInt + carry < -128 ∨ 127 < a.toInt + b.toInt + carry) ∧
    (f.v = false → r.toInt = a.toInt + b.toInt + carry) ∧
    (f.n = true ↔ r.toInt < 0) ∧
    (f.c = true → (a.toNat + b.toNat : Int) + carry = 0x100 + r.toNat) ∧
    (f.c = false → (a.toNat + b.toNat : Int) + carry = r.toNat) ∧
    ¬(f.z = true ∧ f.n = true)

/-- Multi-byte addition (R147, which the spec derives from R140, R143 and R146): ADD on the least
significant bytes and ADC on each following pair, with the operands put into R0 and R1 in between,
give the bytes of the whole sum, its carry, its signed overflow, and the last byte's Z and N. -/
def Obligations.AddThenAdcAddsWholeNumbers : Prop :=
  ∀ (pairs : List (Byte × Byte)) (s : State), pairs ≠ [] →
    let k := pairs.length
    let x := numberOf (pairs.map Prod.fst)
    let y := numberOf (pairs.map Prod.snd)
    ∃ bs t, addBytes true pairs s = some (bs, t) ∧
      bs.length = k ∧
      numberOf bs = (x + y) % 256 ^ k ∧
      (t.flags.c = true ↔ 256 ^ k ≤ x + y) ∧
      (t.flags.v = true ↔ signedOf k x + signedOf k y ≠ signedOf k (numberOf bs)) ∧
      (t.flags.z = true ↔ t.reg 0 = 0x00#8) ∧
      (t.flags.n = true ↔ (t.reg 0).getLsbD 7 = true) ∧
      bs.getLast? = some (t.reg 0)

/-! ### Frames -/

/-- What the register-only instructions leave unchanged: NOP, ADD, ADC, MOVIN, MOVOUT and HALT store
nothing, change no register but their destination, write flags only in ADD and ADC, and change the
status only in HALT (R23, R31, R120, R122, R141, R142, R150, R151). -/
def Obligations.RegisterOnlyInstrFrame : Prop :=
  ∀ (i : Instr) (s t : State), i.wf = true → (∀ d imm, i ≠ .ldi d imm) → (∀ d, i ≠ .ldx d) →
    (∀ r, i ≠ .stx r) → exec i s = .next t →
    (∀ j : Fin Config.nreg, destNumber i ≠ some j.val → t.reg j = s.reg j) ∧
    (i ≠ .add → i ≠ .adc → t.flags = s.flags) ∧
    ((∀ u, i ≠ .halt u) → t.status = s.status) ∧
    (∀ a, Memory.read t.mem a = Memory.read s.mem a) ∧
    t.faultInfo = s.faultInfo ∧ t.pc = s.pc ∧ t.ir = s.ir ∧
    t.readAnswers = s.readAnswers ∧ t.writeAnswers = s.writeAnswers ∧ t.bus = s.bus ∧
    t.freeDraws = s.freeDraws

/-- What LDI and LDX leave unchanged: every register but the destination, every flag, every byte of
memory; LDX also `pc` and `ir`; the status and the fault record, unless a fault is raised, and then
the destination too (R130, R131, R132). -/
def Obligations.LoadInstrFrame : Prop :=
  ∀ (i : Instr) (d : Reg) (s t : State),
    (∃ imm, i = .ldi d imm) ∨ i = .ldx d → i.wf = true → exec i s = .next t →
    (∀ j : Fin Config.nreg, d.number ≠ j.val → t.reg j = s.reg j) ∧
    t.flags = s.flags ∧
    (∀ a, Memory.read t.mem a = Memory.read s.mem a) ∧
    (i = .ldx d → t.pc = s.pc ∧ t.ir = s.ir) ∧
    (t.status = s.status ∧ t.faultInfo = s.faultInfo ∨
      (∃ k, t.status = .faulted k) ∧ ∀ j, t.reg j = s.reg j) ∧
    t.writeAnswers = s.writeAnswers ∧ t.freeDraws = s.freeDraws

/-- What STX leaves unchanged: every byte of memory but the one at the indirect address, every
register and flag, `pc` and `ir`; the status and the fault record unless the write fails (R130,
R133, R165). -/
def Obligations.StoreInstrFrame : Prop :=
  ∀ (r : Reg) (s t : State), (Instr.stx r).wf = true → exec (.stx r) s = .next t →
    (∀ a, a ≠ s.indAddr → Memory.read t.mem a = Memory.read s.mem a) ∧
    (∀ j, t.reg j = s.reg j) ∧
    t.flags = s.flags ∧ t.pc = s.pc ∧ t.ir = s.ir ∧
    (t.status = s.status ∧ t.faultInfo = s.faultInfo ∨ t.status = .faulted .memUnavailable) ∧
    t.readAnswers = s.readAnswers

/-! ### Rules of the whole machine -/

/-- Flags (R31): a step changes a flag only if it is an ADD or an ADC that runs to its end, and these
always write all four; only
ADC reads a flag, and only C. So a step from other flags (with the same C, if it is an ADC) goes to
the same state, with the other flags kept or all four overwritten alike. -/
def Obligations.FlagsAreWrittenByAluOnlyAndReadByAdcOnly : Prop :=
  (∀ s t : State, step s = .next t → t.flags ≠ s.flags →
    s.status = .running ∧ t.status = .running ∧
      (s.nextByte = 0x40#8 ∧ t.flags = aluFlags (s.reg 0) (s.reg 1) false ∨
        s.nextByte = 0x41#8 ∧ t.flags = aluFlags (s.reg 0) (s.reg 1) s.flags.c)) ∧
  (∀ (s t : State) (f : Flags), (s.nextByte = 0x41#8 → f.c = s.flags.c) → step s = .next t →
    ∃ t', step { s with flags := f } = .next t' ∧
      { t' with flags := t.flags } = t ∧ (t'.flags = f ∨ t'.flags = t.flags)) ∧
  (∀ s : State, ∃ t u, exec .add s = .next t ∧ exec .adc s = .next u ∧
    t.flags = aluFlags (s.reg 0) (s.reg 1) false ∧
    u.flags = aluFlags (s.reg 0) (s.reg 1) s.flags.c)

/-- A program cannot observe `ir` (R29, which the spec derives from R28 and R100): a running step
from another `ir` goes to the same state but for `ir`. -/
def Obligations.IrIsNotObservable : Prop :=
  ∀ (s t : State) (b : Byte), s.status = .running → step s = .next t →
    ∃ t', step { s with ir := b } = .next t' ∧ { t' with ir := t.ir } = t

/-- Memory changes only by STX and only at the indirect address, which lies below 0x1000 (R51, which
the spec derives from R108 and R102). -/
def Obligations.OnlyStxChangesMemoryAndOnlyBelow4K : Prop :=
  ∀ s t : State, step s = .next t →
    (∀ a, Memory.read t.mem a ≠ Memory.read s.mem a →
      s.status = .running ∧ a = s.indAddr ∧ a.toNat < 0x1000 ∧
        ∃ j : Fin Config.nreg, s.nextByte = BitVec.ofNat 8 (0x30 + j.val)) ∧
    (∀ a : Addr, 0x1000 ≤ a.toNat → Memory.read t.mem a = Memory.read s.mem a)

/-- The program counter (R26): a step that does not fault advances `pc` by 2 for an LDI and by 1
otherwise, a `DecodeError` has advanced it by 1, no step lowers it, and after HALT it stays. That
the step of the halted core answers a next state, rather than none, is the model's (log 4). -/
def Obligations.PcAdvancesByFetchesOnly : Prop :=
  ∀ s t : State, s.status = .running → step s = .next t →
    (t.status = .running ∨ t.status = .halted →
      t.pc.toNat = s.pc.toNat + if opcodeOf s.nextByte = 0x1#4 then 2 else 1) ∧
    (t.status = .faulted .decodeError → t.pc.toNat = s.pc.toNat + 1) ∧
    (s.pc.toNat ≤ t.pc.toNat ∧ t.pc.toNat ≤ s.pc.toNat + 2) ∧
    (t.status = .halted → ∃ u, step t = .next u ∧ u.pc = t.pc)

/-- Every step writes at most one register (R15, R23, which the spec derives), and it is the
destination of the instruction at `pc`. -/
def Obligations.StepWritesAtMostOneRegister : Prop :=
  ∀ s t : State, step s = .next t →
    (∃ j, ∀ k, k ≠ j → t.reg k = s.reg k) ∧
    (∀ k, t.reg k ≠ s.reg k → ∃ i rest,
      decode [s.nextByte, Memory.read s.mem (s.pc + 1#16)] = .accepted (i, rest) ∧
        destNumber i = some k.val)

/-- Faults are precise (R168; the spec's own decision D12): a faulting step writes no register and
no flag, no memory but the target of a failed STX write, and of `ir` and `pc` only what a completed
fetch wrote: neither where the instruction read failed, `ir` alone where the increment at 0xFFFF
overflowed, both where the fetch completed, and then `ir` once more where the increment after LDI's
immediate overflowed. -/
def Obligations.FaultsArePrecise : Prop :=
  ∀ (s t : State) (k : FaultKind), s.status = .running → step s = .next t →
    t.status = .faulted k →
    (∀ j, t.reg j = s.reg j) ∧ t.flags = s.flags ∧
    (∀ a, Memory.read t.mem a ≠ Memory.read s.mem a →
      k = .memUnavailable ∧ a = s.indAddr ∧ t.faultInfo = some (.memUnavailable a .write)) ∧
    (¬ s.ReadsOk 1 → t.pc = s.pc ∧ t.ir = s.ir) ∧
    (s.ReadsOk 1 → s.pc = 0xFFFF#16 → k = .pcOverflow ∧ t.pc = 0xFFFF#16 ∧ t.ir = s.nextByte) ∧
    (s.ReadsOk 1 → s.pc ≠ 0xFFFF#16 → t.pc = s.pc + 1#16 ∧
      (k ≠ .pcOverflow → t.ir = s.nextByte) ∧
      (k = .pcOverflow → s.pc = 0xFFFE#16 ∧ t.ir = Memory.read s.mem 0xFFFF#16))

/-- The order in which a step meets its faults (R167, which the spec derives from R102, R105 and
R93): the first one met is raised, whatever would come after it. -/
def Obligations.FirstFaultMetIsRaised : Prop :=
  ∀ s : State, s.status = .running →
    (∀ rest, s.readAnswers = .corruption :: rest →
      ∃ t, step s = .next t ∧ t.status = .faulted .memCorruption) ∧
    (∀ rest, s.readAnswers = .unavailable :: rest →
      ∃ t, step s = .next t ∧ t.status = .faulted .memUnavailable) ∧
    (s.ReadsOk 1 → s.pc = 0xFFFF#16 →
      ∃ t, step s = .next t ∧ t.status = .faulted .pcOverflow) ∧
    (s.ReadsOk 1 → s.pc ≠ 0xFFFF#16 → illegal Config.nreg s.nextByte = true →
      ∃ t, step s = .next t ∧ t.status = .faulted .decodeError) ∧
    (∀ (j : Fin Config.nreg) (rest : List ReadAnswer) (e : ReadAnswer),
      s.readAnswers = .ok :: e :: rest → s.pc ≠ 0xFFFF#16 →
      (s.nextByte = BitVec.ofNat 8 (0x10 + j.val) ∨ s.nextByte = BitVec.ofNat 8 (0x20 + j.val)) →
      (e = .corruption → ∃ t, step s = .next t ∧ t.status = .faulted .memCorruption) ∧
      (e = .unavailable → ∃ t, step s = .next t ∧ t.status = .faulted .memUnavailable)) ∧
    (∀ j : Fin Config.nreg, s.ReadsOk 2 → s.pc = 0xFFFE#16 →
      s.nextByte = BitVec.ofNat 8 (0x10 + j.val) →
      ∃ t, step s = .next t ∧ t.status = .faulted .pcOverflow) ∧
    (∀ (j : Fin Config.nreg) (rest : List WriteAnswer), s.ReadsOk 1 → s.pc ≠ 0xFFFF#16 →
      s.nextByte = BitVec.ofNat 8 (0x30 + j.val) → s.writeAnswers = .unavailable :: rest →
      ∃ t, step s = .next t ∧ t.status = .faulted .memUnavailable)

/-- Every run ends (R200, which the spec derives from R43, R120, R104 and R112): from any state, with
a memory that answers, 65536 steps reach Halted or Faulted. The steps counted include the idle steps
of a core that has stopped before (log 4), so the number is an upper bound. -/
def Obligations.EveryRunEndsWithin65536Steps : Prop :=
  ∀ s : State, s.MemoryAnswers →
    ∃ t, Host.Core.run Sys2Proof.core 65536 s = .next t ∧ t.status ≠ .running

/-! ### Addresses, memory, the status word -/

/-- The indirect address bit by bit (R108; the registers are the spec's own decision D6, the reading
D23). -/
def Obligations.IndirectAddressBits : Prop :=
  ∀ s : State,
    let h := s.reg 2
    let l := s.reg 3
    let a := s.indAddr
    a = (h.setWidth 16 <<< 4 ||| l.setWidth 16) ∧
    a.extractLsb' 12 4 = 0x0#4 ∧
    a.extractLsb' 8 4 = h.extractLsb' 4 4 ∧
    a.extractLsb' 4 4 = (h.extractLsb' 0 4 ||| l.extractLsb' 4 4) ∧
    a.extractLsb' 0 4 = l.extractLsb' 0 4

/-- The reach of the indirect address (R109, which the spec derives from R108): exactly the
addresses below 0x1000; with a zero high register it is the low register; it is not injective. -/
def Obligations.IndirectAddressReach : Prop :=
  (∀ a : Addr, (∃ h l, indirect h l = a) ↔ a.toNat < 0x1000) ∧
  (∀ l : Byte, (indirect 0x00#8 l).toNat = l.toNat) ∧
  indirect 0x01#8 0xF0#8 = 0x00F0#16 ∧ indirect 0x0F#8 0xF0#8 = 0x00F0#16 ∧
  indirect 0x0F#8 0x00#8 = 0x00F0#16 ∧ indirect 0x00#8 0xF0#8 = 0x00F0#16 ∧
  indirect 0x01#8 0x0F#8 = 0x001F#16 ∧ indirect 0x01#8 0x10#8 = 0x0010#16

/-- The packed status word (R32; bits 3 to 0 are the spec's own decision D11). -/
def Obligations.StatusWordPacksTheFlags : Prop :=
  (∀ f : Flags,
    (pack f).getLsbD 7 = f.z ∧ (pack f).getLsbD 6 = f.n ∧ (pack f).getLsbD 5 = f.c ∧
    (pack f).getLsbD 4 = f.v ∧ (pack f).extractLsb' 0 4 = 0x0#4 ∧ unpack (pack f) = f) ∧
  ∀ b : Byte, pack (unpack b) = (b &&& 0xF0#8)

/-- The laws of the memory (R55): a read after a write of the same address gives the byte written,
every other address reads as before, and an address never written reads 0x00. -/
def Obligations.MemoryRoundTripAndDefaultZero : Prop :=
  (∀ (m : List Host.Cell) (a : Addr) (v : Byte), Memory.wf m = true →
    Memory.read (Memory.write m a v) a = v ∧
    (∀ b, b ≠ a → Memory.read (Memory.write m a v) b = Memory.read m b)) ∧
  ∀ (writes : List (Addr × Byte)) (a : Addr), (∀ w ∈ writes, w.1 ≠ a) →
    Memory.read (writes.foldl (fun m w => Memory.write m w.1 w.2) []) a = 0x00#8

/-- Equal memories are equal lists: two memories in canonical form that read alike at every address
are the same (log 17). -/
def Obligations.MemoriesThatReadAlikeAreEqual : Prop :=
  ∀ m m' : List Host.Cell, Memory.wf m = true → Memory.wf m' = true →
    (∀ a, Memory.read m a = Memory.read m' a) → m = m'

/-- `MemRead` (R53): the byte of the cell, `MemCorruption` or `MemUnavailable`, as the memory
answers; a read changes no cell. -/
def Obligations.MemReadAnswers : Prop :=
  ∀ (kind : ReadKind) (a : Addr) (s : State),
    (s.ReadsOk 1 → memRead kind a s = .value (Memory.read s.mem a)
      { s with
        readAnswers := s.readAnswers.drop 1
        bus := .read kind a (.byte (Memory.read s.mem a)) :: s.bus }) ∧
    (∀ rest, s.readAnswers = .corruption :: rest → memRead kind a s = .raised
      { s with
        status := .faulted .memCorruption
        faultInfo := some (.memCorruption a kind)
        readAnswers := rest
        bus := .read kind a .corruption :: s.bus }) ∧
    (∀ rest, s.readAnswers = .unavailable :: rest → memRead kind a s = .raised
      { s with
        status := .faulted .memUnavailable
        faultInfo := some (.memUnavailable a .read)
        readAnswers := rest
        bus := .read kind a .unavailable :: s.bus })

/-- `MemWrite` (R54): the cell takes the byte and no other cell changes, or `MemUnavailable`, after
which that one cell holds an unspecified byte (U7, log 7). -/
def Obligations.MemWriteAnswers : Prop :=
  ∀ (a : Addr) (v : Byte) (s : State), Memory.wf s.mem = true →
    (s.WritesOk 1 → ∃ t, memWrite a v s = .value () t ∧
      Memory.read t.mem a = v ∧ (∀ b, b ≠ a → Memory.read t.mem b = Memory.read s.mem b) ∧
      t = { s with
        mem := t.mem, writeAnswers := s.writeAnswers.drop 1, bus := .write a v .done :: s.bus }) ∧
    (∀ rest, s.writeAnswers = .unavailable :: rest → ∃ t, memWrite a v s = .raised t ∧
      (∀ b, b ≠ a → Memory.read t.mem b = Memory.read s.mem b) ∧
      t = { s with
        mem := t.mem
        status := .faulted .memUnavailable
        faultInfo := some (.memUnavailable a .write)
        writeAnswers := rest
        freeDraws := s.freeDraws + 1
        bus := .write a v .unavailable :: s.bus })

/-- A store is seen by every later fetch and load (R66, which the spec derives from R63 and R102):
after an STX that was accepted, reading its target for any purpose brings the stored register. -/
def Obligations.StoreIsSeenByFetchAndLoad : Prop :=
  ∀ (r : Reg) (j : Fin Config.nreg) (s t u : State) (kind : ReadKind),
    Memory.wf s.mem = true → r.number = j.val → s.WritesOk 1 → exec (.stx r) s = .next t →
    u.mem = t.mem → u.ReadsOk 1 → ∃ u', memRead kind s.indAddr u = .value (s.reg j) u'

/-! ### Memory errors -/

/-- `MemCorruption` (R164): an instruction or immediate fetch that fails leaves `ir` and `pc` as they
were before it, an LDX that fails leaves its register; nothing else changes but the fault's entry. -/
def Obligations.CorruptReadWritesNothing : Prop :=
  ∀ (s : State) (rest : List ReadAnswer),
    (s.status = .running → s.readAnswers = .corruption :: rest → step s = .next
      { s with
        status := .faulted .memCorruption
        faultInfo := some (.memCorruption s.pc .instruction)
        readAnswers := rest
        bus := .read .instruction s.pc .corruption :: s.bus }) ∧
    (∀ j : Fin Config.nreg, s.CanFetch 1 → s.readAnswers = .ok :: .corruption :: rest →
      s.nextByte = BitVec.ofNat 8 (0x10 + j.val) → step s = .next
        { s.afterFetch 1 with
          status := .faulted .memCorruption
          faultInfo := some (.memCorruption (s.pc + 1#16) .immediate)
          readAnswers := rest
          bus := .read .immediate (s.pc + 1#16) .corruption :: (s.afterFetch 1).bus }) ∧
    ∀ (d : Reg) (j : Fin Config.nreg), s.readAnswers = .corruption :: rest → d.number = j.val →
      exec (.ldx d) s = .next
        { s with
          status := .faulted .memCorruption
          faultInfo := some (.memCorruption s.indAddr .data)
          readAnswers := rest
          bus := .read .data s.indAddr .corruption :: s.bus }

/-- `MemUnavailable` (R165): as R164 for reads; a failed STX write changes no register and no flag,
and leaves its one target cell with an unspecified byte (U7, log 7). -/
def Obligations.UnavailableMemoryWritesNoRegister : Prop :=
  (∀ (s : State) (rest : List ReadAnswer),
    (s.status = .running → s.readAnswers = .unavailable :: rest → step s = .next
      { s with
        status := .faulted .memUnavailable
        faultInfo := some (.memUnavailable s.pc .read)
        readAnswers := rest
        bus := .read .instruction s.pc .unavailable :: s.bus }) ∧
    (∀ j : Fin Config.nreg, s.CanFetch 1 → s.readAnswers = .ok :: .unavailable :: rest →
      s.nextByte = BitVec.ofNat 8 (0x10 + j.val) → step s = .next
        { s.afterFetch 1 with
          status := .faulted .memUnavailable
          faultInfo := some (.memUnavailable (s.pc + 1#16) .read)
          readAnswers := rest
          bus := .read .immediate (s.pc + 1#16) .unavailable :: (s.afterFetch 1).bus }) ∧
    ∀ (d : Reg) (j : Fin Config.nreg), s.readAnswers = .unavailable :: rest → d.number = j.val →
      exec (.ldx d) s = .next
        { s with
          status := .faulted .memUnavailable
          faultInfo := some (.memUnavailable s.indAddr .read)
          readAnswers := rest
          bus := .read .data s.indAddr .unavailable :: s.bus }) ∧
  ∀ (s : State) (rest : List WriteAnswer) (r : Reg) (j : Fin Config.nreg),
    s.writeAnswers = .unavailable :: rest → r.number = j.val →
    ∃ v : Byte, exec (.stx r) s = .next
      { s with
        mem := Memory.write s.mem s.indAddr v
        status := .faulted .memUnavailable
        faultInfo := some (.memUnavailable s.indAddr .write)
        writeAnswers := rest
        freeDraws := s.freeDraws + 1
        bus := .write s.indAddr (s.reg j) .unavailable :: s.bus }

/-- A memory that never answers (R68, U11): the core is stuck in the middle of the step, which in
the model is a stop without a next state (log 6), with the transaction that was not answered on the
interface and `mem_done` 0 (R18). -/
def Obligations.MemoryThatNeverAnswersStopsTheStep : Prop :=
  (∀ s : State, s.status = .running →
    (∀ rest, s.readAnswers = .never :: rest →
      step s = .fault (.memoryNeverAnswers (.read .instruction s.pc))) ∧
    (∀ (j : Fin Config.nreg) (rest : List ReadAnswer), s.readAnswers = .ok :: .never :: rest →
      s.pc ≠ 0xFFFF#16 →
      (s.nextByte = BitVec.ofNat 8 (0x10 + j.val) →
        step s = .fault (.memoryNeverAnswers (.read .immediate (s.pc + 1#16)))) ∧
      (s.nextByte = BitVec.ofNat 8 (0x20 + j.val) →
        step s = .fault (.memoryNeverAnswers (.read .data s.indAddr)))) ∧
    (∀ (j : Fin Config.nreg) (rest : List WriteAnswer), s.CanFetch 1 →
      s.nextByte = BitVec.ofNat 8 (0x30 + j.val) → s.writeAnswers = .never :: rest →
      step s = .fault (.memoryNeverAnswers (.write s.indAddr (s.reg j))))) ∧
  ∀ r : Request, (Fault.memoryNeverAnswers r).current.request = r ∧
    (Fault.memoryNeverAnswers r).current.memDone = false

/-! ### The outside -/

/-- The outputs (R182; the spec's own decision D15): `halted` rises with Halted, `fault` takes the
code of the kind (R160), both stay, and never both are non-zero. -/
def Obligations.HaltedAndFaultOutputs : Prop :=
  ∀ s : State,
    (s.haltedOut = true ↔ s.status = .halted) ∧
    (s.faultOut = 0#3 ↔ s.status = .running ∨ s.status = .halted) ∧
    (s.status = .faulted .decodeError → s.faultOut = 1#3) ∧
    (s.status = .faulted .memCorruption → s.faultOut = 2#3) ∧
    (s.status = .faulted .memUnavailable → s.faultOut = 3#3) ∧
    (s.status = .faulted .pcOverflow → s.faultOut = 4#3) ∧
    ¬(s.haltedOut = true ∧ s.faultOut ≠ 0#3) ∧
    (∀ t, s.haltedOut = true ∨ s.faultOut ≠ 0#3 → step s = .next t →
      t.haltedOut = s.haltedOut ∧ t.faultOut = s.faultOut)

/-- The debug trace (R103, R180; the order Z, N, C, V is the spec's own decision D22). Each character
of the flag mask is the flag's letter or `-`; the line of a state reports `pc`, the registers and
the mask; `fetch()` traces the byte of each completed fetch, which a step adds to the trace as far as
its fetches come; with `debug_en` off there is no trace. The model leaves open when a line is
emitted, gives `debug_en` one value from reset on, and counts a byte whose increment raises
`PcOverflow` as traced (log 13). -/
def Obligations.DebugTraceShowsTheFlags : Prop :=
  flagMask ⟨true, false, true, false⟩ = ['Z', '-', 'C', '-'] ∧
  flagMask ⟨false, false, false, false⟩ = ['-', '-', '-', '-'] ∧
  (∀ f : Flags, flagMask f =
    [if f.z then 'Z' else '-', if f.n then 'N' else '-',
      if f.c then 'C' else '-', if f.v then 'V' else '-']) ∧
  (∀ s : State, s.debugLine false = none ∧ s.debugFetched false = [] ∧
    s.debugLine true = some ⟨s.pc, s.regs, flagMask s.flags⟩) ∧
  State.reset.debugFetched true = [] ∧
  ∀ s t : State, s.status = .running → step s = .next t →
    let before := s.debugFetched true
    let after := t.debugFetched true
    (∀ (e : ReadAnswer) (rest : List ReadAnswer), s.readAnswers = e :: rest → e ≠ .ok →
      after = before) ∧
    (s.ReadsOk 1 →
      s.pc = 0xFFFF#16 ∨ (∀ j : Fin Config.nreg, s.nextByte ≠ BitVec.ofNat 8 (0x10 + j.val)) →
      after = s.nextByte :: before) ∧
    (∀ j : Fin Config.nreg, s.pc ≠ 0xFFFF#16 → s.nextByte = BitVec.ofNat 8 (0x10 + j.val) →
      (s.ReadsOk 2 →
        after = Memory.read s.mem (s.pc + 1#16) :: s.nextByte :: before) ∧
      (∀ (e : ReadAnswer) (rest : List ReadAnswer), s.readAnswers = .ok :: e :: rest → e ≠ .ok →
        after = s.nextByte :: before))

/-- The keys and values of the reference store (R70, R71, R58): `ram:` and four upper-case digits,
two upper-case digits for a byte; no two addresses share a key, no two bytes a value, and the
encoder's own check cannot fail. -/
def Obligations.StoreKeysAndValues : Prop :=
  Store.key 0x002A#16 = ['r', 'a', 'm', ':', '0', '0', '2', 'A'] ∧
  hexByte 0x0A#8 = ['0', 'A'] ∧
  (∀ a b : Addr, Store.key a = Store.key b → a = b) ∧
  (∀ v : Byte, byteOfHex (hexByte v) = some v) ∧
  ∀ (a : Addr) (v : Byte), Store.encoderCheck a v = true

/-- The reference store is a memory (R72 to R75, R55): it starts as the empty memory, an accepted
write of it is a write of the memory, an unreachable store answers `MemUnavailable`, and a malformed
value is `MemCorruption`. -/
def Obligations.BackingStoreRefinesMemory : Prop :=
  StoreHolds [] [] ∧
  (∀ (st : Store) (m : List Host.Cell) (a : Addr) (v : Byte),
    Memory.wf m = true → StoreHolds st m →
    ∃ st', Store.write true a v st = .stored st' ∧ StoreHolds st' (Memory.write m a v)) ∧
  (∀ (st : Store) (a : Addr) (v : Byte),
    Store.read false a st = .unavailable ∧ Store.write false a v st = .unavailable) ∧
  (∀ (st : Store) (a : Addr) (t : List Char), Store.lookup st (Store.key a) = some t →
    Store.validHex 2 t = false → Store.read true a st = .corruption)

/-- The loader places bytes from address 0 in file order and touches no other cell (R195); of
(address, byte) pairs the last one for an address counts. It writes through the contract the core
writes through (R54), so a write that the memory does not accept (R57), or never answers (R68), ends
the load. The memory's answers to it are the first of those still to come (log 5). A file of more
bytes than there are cells is a load error by the model's choice (log 15), and it is the error met
also where the memory would fail a write. -/
def Obligations.LoaderPlacesBytesInOrder : Prop :=
  (∀ (bytes : List Byte) (s : State), Memory.wf s.mem = true →
    (bytes.length ≤ 65536 → s.WritesOk bytes.length →
      ∃ t, loadBytes bytes s = .ready t ∧
        t = { s with mem := t.mem, writeAnswers := s.writeAnswers.drop bytes.length } ∧
        (∀ (i : Nat) (h : i < bytes.length), Memory.read t.mem (BitVec.ofNat 16 i) = bytes[i]) ∧
        ∀ a : Addr, bytes.length ≤ a.toNat → Memory.read t.mem a = Memory.read s.mem a) ∧
    (∀ k : Nat, k < bytes.length → bytes.length ≤ 65536 → s.WritesOk k →
      (s.writeAnswers[k]? = some .unavailable →
        loadBytes bytes s = .failed (.memUnavailable (BitVec.ofNat 16 k))) ∧
      (s.writeAnswers[k]? = some .never →
        loadBytes bytes s = .failed (.memoryNeverAnswers (BitVec.ofNat 16 k)))) ∧
    (65536 < bytes.length → loadBytes bytes s = .failed .tooLong)) ∧
  (∀ (cells : List (Addr × Byte)) (a : Addr) (v : Byte) (s : State), Memory.wf s.mem = true →
    s.WritesOk (cells.length + 1) →
    ∃ t u, loadCells (cells ++ [(a, v)]) s = .ready t ∧ loadCells cells s = .ready u ∧
      Memory.read t.mem a = v ∧ ∀ b, b ≠ a → Memory.read t.mem b = Memory.read u.mem b) ∧
  ∀ (earlier later : List (Addr × Byte)) (a : Addr) (v : Byte) (s : State),
    s.WritesOk earlier.length →
    (s.writeAnswers[earlier.length]? = some .unavailable →
      loadCells (earlier ++ (a, v) :: later) s = .failed (.memUnavailable a)) ∧
    (s.writeAnswers[earlier.length]? = some .never →
      loadCells (earlier ++ (a, v) :: later) s = .failed (.memoryNeverAnswers a))

/-- The text form of a program (R97, R166, R195). One line: the hexadecimal pairs of any bytes, with
or without a comment after `#`, are read as those bytes. A text: lines of such pairs, each with or
without a comment, load as their bytes in file order from address 0. A token that is no pair of
hexadecimal digits, at any place in any line, is a load error. The model's choice (log 15) is: which
characters count as digits, what separates tokens, what ends a line, and that a comment may begin
right after a token; that an empty line and a line with only a comment load as no byte, which the
fourth clause says; and that a malformed token is the error met in every state, also where the memory
would fail the write of an earlier byte, which the last clause says. -/
def Obligations.LoaderReadsHexLines : Prop :=
  (∀ bytes : List Byte, bytesOfLine (lineOfBytes bytes) = some bytes) ∧
  (∀ (bytes : List Byte) (comment : List Char),
    bytesOfLine (lineOfBytes bytes ++ ' ' :: '#' :: comment) = some bytes) ∧
  (∀ (token : List Char) (bytes : List Byte), token ≠ [] → ' ' ∉ token → '#' ∉ token →
    byteOfHex token = none →
    bytesOfLine (lineOfBytes bytes ++ ' ' :: token) = none) ∧
  (∀ (lines : List (List Byte × Option (List Char))) (s : State),
    (∀ l ∈ lines, ∀ comment, l.2 = some comment → '\n' ∉ comment) →
    let text := textOfLines
      (lines.map fun l => lineOfBytes l.1 ++ l.2.elim [] fun comment => ' ' :: '#' :: comment)
    let bytes := lines.flatMap Prod.fst
    loadText text s = loadBytes bytes s ∧
    (Memory.wf s.mem = true → bytes.length ≤ 65536 → s.WritesOk bytes.length →
      ∃ t, loadText text s = .ready t ∧
        (∀ (i : Nat) (h : i < bytes.length), Memory.read t.mem (BitVec.ofNat 16 i) = bytes[i]) ∧
        ∀ a : Addr, bytes.length ≤ a.toNat → Memory.read t.mem a = Memory.read s.mem a)) ∧
  ∀ (earlier later : List (List Char)) (left token right : List Char) (s : State),
    (∀ l ∈ earlier ++ later, '\n' ∉ l) → '\n' ∉ left ++ token ++ right → '#' ∉ left ++ token →
    left = [] ∨ left.getLast? = some ' ' →
    right = [] ∨ right.head? = some ' ' ∨ right.head? = some '#' →
    token ≠ [] → ' ' ∉ token → byteOfHex token = none →
    loadText (textOfLines (earlier ++ (left ++ token ++ right) :: later)) s = .failed .malformed
end

