-- ==== Sys2Proof/Laws/Decode.lean ====
section
/-!
SUPPORT. What the decoder says of a first byte of this hardware, in both directions.
-/

namespace Sys2Proof

/-- The first byte the encoder would write for what the decoder read, and that a named register
exists: `decodeFirst` read backwards. -/
def FirstByte.agrees (b : Byte) : FirstByte → Prop
  | .ldi d => b = BitVec.ofNat 8 (0x10 + d.number) ∧ d.number < Config.nreg
  | .whole (.nop u) => b = 0x0#4 ++ u
  | .whole (.ldi _ _) => False
  | .whole (.ldx d) => b = BitVec.ofNat 8 (0x20 + d.number) ∧ d.number < Config.nreg
  | .whole (.stx r) => b = BitVec.ofNat 8 (0x30 + r.number) ∧ r.number < Config.nreg
  | .whole .add => b = 0x40#8
  | .whole .adc => b = 0x41#8
  | .whole (.movin p r) =>
    b = BitVec.ofNat 8 (0x60 + 8 * p.reg.number + r.number) ∧ r.number < Config.nreg
  | .whole (.movout p d) =>
    b = BitVec.ofNat 8 (0x70 + 8 * p.reg.number + d.number) ∧ d.number < Config.nreg
  | .whole (.halt u) => b = 0xF#4 ++ u

/-- `FirstByte.agrees` as a check that evaluates. -/
def FirstByte.agreesB (b : Byte) : FirstByte → Bool
  | .ldi d => b == BitVec.ofNat 8 (0x10 + d.number) && d.number < Config.nreg
  | .whole (.nop u) => b == 0x0#4 ++ u
  | .whole (.ldi _ _) => false
  | .whole (.ldx d) => b == BitVec.ofNat 8 (0x20 + d.number) && d.number < Config.nreg
  | .whole (.stx r) => b == BitVec.ofNat 8 (0x30 + r.number) && r.number < Config.nreg
  | .whole .add => b == 0x40#8
  | .whole .adc => b == 0x41#8
  | .whole (.movin p r) =>
    b == BitVec.ofNat 8 (0x60 + 8 * p.reg.number + r.number) && r.number < Config.nreg
  | .whole (.movout p d) =>
    b == BitVec.ofNat 8 (0x70 + 8 * p.reg.number + d.number) && d.number < Config.nreg
  | .whole (.halt u) => b == 0xF#4 ++ u

theorem FirstByte.agrees_of_agreesB {b : Byte} {f : FirstByte} (h : f.agreesB b = true) :
    f.agrees b := by
  rcases f with i | d
  · cases i <;> simp_all [FirstByte.agrees, FirstByte.agreesB]
  · simpa [FirstByte.agrees, FirstByte.agreesB] using h

theorem decodeFirst_agreesB : ∀ b : Byte,
    (match decodeFirst Config.nreg b with
      | .accepted f => f.agreesB b
      | .rejected _ => true) = true := by decide

/-- The byte and the registers of an accepted first byte. -/
theorem agrees_of_decodeFirst {b : Byte} {f : FirstByte}
    (h : decodeFirst Config.nreg b = .accepted f) : f.agrees b := by
  have := decodeFirst_agreesB b
  rw [h] at this
  exact FirstByte.agrees_of_agreesB this

/-- An accepted first byte is not rejected, and conversely. -/
theorem illegal_iff {nreg : Nat} {b : Byte} :
    illegal nreg b = true ↔ ∃ e, decodeFirst nreg b = .rejected e := by
  rw [illegal]
  split <;> simp_all

theorem decodeFirst_nop (u : Nibble) :
    decodeFirst Config.nreg (0x0#4 ++ u) = .accepted (.whole (.nop u)) := by
  revert u; decide

theorem decodeFirst_halt (u : Nibble) :
    decodeFirst Config.nreg (0xF#4 ++ u) = .accepted (.whole (.halt u)) := by
  revert u; decide

theorem decodeFirst_add : decodeFirst Config.nreg 0x40#8 = .accepted (.whole .add) := by decide

theorem decodeFirst_adc : decodeFirst Config.nreg 0x41#8 = .accepted (.whole .adc) := by decide

/-- The register with a number the machine has. -/
def regOfFin : Fin Config.nreg → Reg
  | 0 => .r0
  | 1 => .r1
  | 2 => .r2
  | 3 => .r3

@[simp] theorem regOfFin_number (j : Fin Config.nreg) : (regOfFin j).number = j.val := by
  revert j; decide

theorem decodeFirst_ldi (j : Fin Config.nreg) :
    decodeFirst Config.nreg (BitVec.ofNat 8 (0x10 + j.val)) = .accepted (.ldi (regOfFin j)) := by
  revert j; decide

theorem decodeFirst_ldx (j : Fin Config.nreg) :
    decodeFirst Config.nreg (BitVec.ofNat 8 (0x20 + j.val)) =
      .accepted (.whole (.ldx (regOfFin j))) := by
  revert j; decide

theorem decodeFirst_stx (j : Fin Config.nreg) :
    decodeFirst Config.nreg (BitVec.ofNat 8 (0x30 + j.val)) =
      .accepted (.whole (.stx (regOfFin j))) := by
  revert j; decide

theorem decodeFirst_movin (p : Primary) (j : Fin Config.nreg) :
    decodeFirst Config.nreg (BitVec.ofNat 8 (0x60 + 8 * p.reg.number + j.val)) =
      .accepted (.whole (.movin p (regOfFin j))) := by
  cases p <;> revert j <;> decide

theorem decodeFirst_movout (p : Primary) (j : Fin Config.nreg) :
    decodeFirst Config.nreg (BitVec.ofNat 8 (0x70 + 8 * p.reg.number + j.val)) =
      .accepted (.whole (.movout p (regOfFin j))) := by
  cases p <;> revert j <;> decide

end Sys2Proof
end

