-- ==== Sys2Proof/Laws/Memory.lean ====
section
/-!
SUPPORT. The laws of memory: what a cell reads as after a write, that every write keeps the
canonical form, and that the canonical form is unique.
-/

namespace Sys2Proof.Machine.Memory

/-- Below the first cell of a canonical memory every address is unlisted. -/
theorem get_below {lo a : Nat} {m : List Host.Cell} (h : wfFrom lo m = true) (ha : a < lo) :
    get m a = unlisted := by
  induction m generalizing lo with
  | nil => rfl
  | cons c m ih =>
    obtain ⟨k, v⟩ := c
    simp only [wfFrom, Bool.and_eq_true, decide_eq_true_eq] at h
    obtain ⟨⟨⟨hk, -⟩, -⟩, hm⟩ := h
    rw [get, if_neg (by omega), ih hm (by omega)]

theorem wfFrom_mono {lo lo' : Nat} {m : List Host.Cell} (h : wfFrom lo m = true) (hl : lo' ≤ lo) :
    wfFrom lo' m = true := by
  cases m with
  | nil => rfl
  | cons c m =>
    obtain ⟨k, v⟩ := c
    simp only [wfFrom, Bool.and_eq_true, decide_eq_true_eq] at h ⊢
    exact ⟨⟨⟨by omega, h.1.1.2⟩, h.1.2⟩, h.2⟩

/-- A canonical memory read after a write: the byte at the address written, the old byte at any
other. -/
theorem get_put {lo : Nat} {m : List Host.Cell} (h : wfFrom lo m = true) (a b : Nat) (v : Byte) :
    get (put m a v) b = if b = a then v else get m b := by
  induction m generalizing lo with
  | nil =>
    simp only [put]
    split
    · subst_vars; simp [get]
    · simp only [get]
      split <;> split <;> first | rfl | omega
  | cons c m ih =>
    obtain ⟨k, w⟩ := c
    simp only [wfFrom, Bool.and_eq_true, decide_eq_true_eq] at h
    obtain ⟨⟨⟨hk, hk'⟩, hw⟩, hm⟩ := h
    simp only [put]
    by_cases h1 : a < k
    · simp only [h1, if_true]
      have hu : get m a = unlisted := get_below hm (by omega)
      by_cases hv : v = unlisted
      · simp only [hv, if_true, get]
        by_cases hb : b = a
        · subst hb; simp [hu, show k ≠ b by omega]
        · simp [hb]
      · simp only [hv, if_false, get]
        by_cases hb : b = a
        · simp [hb]
        · simp [hb, Ne.symm hb]
    · simp only [h1, if_false]
      by_cases h2 : a = k
      · subst h2
        have hu : get m a = unlisted := get_below hm (by omega)
        by_cases hv : v = unlisted
        · simp only [hv, if_true, get]
          by_cases hb : b = a
          · subst hb; simp [hu]
          · simp [hb, Ne.symm hb]
        · simp only [hv, if_true, if_false, get]
          by_cases hb : b = a
          · simp [hb]
          · simp [hb, Ne.symm hb]
      · simp only [h2, if_false, get]
        by_cases hb : k = b
        · subst hb; simp [Ne.symm h2]
        · simp only [hb, if_false]; exact ih hm

/-- A write keeps the canonical form. -/
theorem put_wfFrom {lo a : Nat} {m : List Host.Cell} (v : Byte) (h : wfFrom lo m = true)
    (hl : lo ≤ a) (ha : a < 65536) : wfFrom lo (put m a v) = true := by
  induction m generalizing lo with
  | nil =>
    simp only [put]
    split
    · rfl
    · simp [wfFrom, *]
  | cons c m ih =>
    obtain ⟨k, w⟩ := c
    have h' := h
    simp only [wfFrom, Bool.and_eq_true, decide_eq_true_eq] at h
    obtain ⟨⟨⟨hk, hk'⟩, hw⟩, hm⟩ := h
    simp only [put]
    by_cases h1 : a < k
    · by_cases hv : v = unlisted
      · simp [h1, hv, h']
      · simp [h1, hv, wfFrom, hl, ha, hk', hw, hm, show a + 1 ≤ k by omega]
    · by_cases h2 : a = k
      · subst h2
        by_cases hv : v = unlisted
        · simp [hv, wfFrom_mono hm (show lo ≤ a + 1 by omega)]
        · simp [hv, wfFrom, hl, ha, hm]
      · have := ih hm (show k + 1 ≤ a by omega)
        simp [h1, h2, wfFrom, hk, hk', this]
        simpa using hw

theorem write_wf {m : List Host.Cell} (a : Addr) (v : Byte) (h : wf m = true) :
    wf (write m a v) = true :=
  put_wfFrom v h (Nat.zero_le _) a.isLt

theorem read_write {m : List Host.Cell} (h : wf m = true) (a b : Addr) (v : Byte) :
    read (write m a v) b = if b = a then v else read m b := by
  rw [read, write, get_put h]
  by_cases hb : b = a
  · simp [hb]
  · simp [hb, BitVec.toNat_inj, read]

theorem read_write_self {m : List Host.Cell} (h : wf m = true) (a : Addr) (v : Byte) :
    read (write m a v) a = v := by simp [read_write h]

/-- An address other than the one written reads as before, in any list of cells. -/
theorem get_put_of_ne {m : List Host.Cell} {a b : Nat} (v : Byte) (hb : b ≠ a) :
    get (put m a v) b = get m b := by
  induction m with
  | nil =>
    simp only [put]
    split
    · rfl
    · simp [get, Ne.symm hb]
  | cons c m ih =>
    obtain ⟨k, w⟩ := c
    simp only [put]
    by_cases h1 : a < k
    · by_cases hv : v = unlisted
      · simp [h1, hv]
      · simp [h1, hv, get, Ne.symm hb]
    · by_cases h2 : a = k
      · subst h2
        by_cases hv : v = unlisted
        · simp [hv, get, Ne.symm hb]
        · simp [hv, get, Ne.symm hb]
      · simp only [h1, h2, if_false, get, ih]

theorem read_write_of_ne {m : List Host.Cell} {a b : Addr} (v : Byte) (hb : b ≠ a) :
    read (write m a v) b = read m b :=
  get_put_of_ne v fun h => hb (BitVec.eq_of_toNat_eq h)

@[simp] theorem read_nil (a : Addr) : read [] a = 0x00#8 := rfl

/-- Equal memories are equal lists. -/
theorem eq_of_get_eq {lo : Nat} {m m' : List Host.Cell} (h : wfFrom lo m = true)
    (h' : wfFrom lo m' = true) (he : ∀ a, a < 65536 → get m a = get m' a) : m = m' := by
  induction m generalizing lo m' with
  | nil =>
    cases m' with
    | nil => rfl
    | cons c m' =>
      obtain ⟨k, v⟩ := c
      simp only [wfFrom, Bool.and_eq_true, decide_eq_true_eq] at h'
      have := he k h'.1.1.2
      simp only [get, if_true] at this
      simp [← this] at h'
  | cons c m ih =>
    obtain ⟨k, v⟩ := c
    have hm0 := h
    simp only [wfFrom, Bool.and_eq_true, decide_eq_true_eq] at h
    obtain ⟨⟨⟨hk, hk'⟩, hv⟩, hm⟩ := h
    cases m' with
    | nil =>
      have := he k hk'
      simp only [get, if_true] at this
      simp [this] at hv
    | cons c' m' =>
      obtain ⟨k', v'⟩ := c'
      have hm0' := h'
      simp only [wfFrom, Bool.and_eq_true, decide_eq_true_eq] at h'
      obtain ⟨⟨⟨hl, hl'⟩, hv'⟩, hm'⟩ := h'
      have hkk : k = k' := by
        rcases Nat.lt_trichotomy k k' with hlt | heq | hgt
        · have h1 := he k hk'
          have h2 : get m' k = unlisted := get_below hm' (by omega)
          simp only [get, if_true, if_neg (show ¬ k' = k by omega), h2] at h1
          simp [h1] at hv
        · exact heq
        · have h1 := he k' hl'
          have h2 : get m k' = unlisted := get_below hm (by omega)
          simp only [get, if_true, if_neg (show ¬ k = k' by omega), h2] at h1
          simp [← h1] at hv'
      subst hkk
      have hvv : v = v' := by simpa [get] using he k hk'
      subst hvv
      congr 1
      refine ih hm hm' fun a ha => ?_
      by_cases hak : k = a
      · subst hak
        rw [get_below hm (by omega), get_below hm' (by omega)]
      · simpa [get, hak] using he a ha

end Sys2Proof.Machine.Memory
end

