-- ==== Sys2Proof/Laws/State.lean ====
section
/-!
SUPPORT. One lemma per field of State for each named update of a state, and what a register reads
after a register write, so that later proofs unfold no record update.
-/

namespace Sys2Proof.Machine

@[simp] theorem State.reg_setReg (s : State) (i j : Fin Config.nreg) (v : Byte) :
    (s.setReg i v).reg j = if j = i then v else s.reg j := by
  simp only [State.reg, State.setReg, Vector.get_eq_getElem, Vector.getElem_set, Fin.ext_iff]
  by_cases h : j.val = i.val
  · simp [h]
  · simp [h, Ne.symm h]

/-- Two states with the same registers read alike. -/
theorem State.reg_congr {s t : State} (h : t.regs = s.regs) (j : Fin Config.nreg) :
    t.reg j = s.reg j := by rw [State.reg, State.reg, h]

@[simp] theorem State.setReg_regs (s : State) (j : Fin Config.nreg) (v : Byte) :
    (s.setReg j v).regs = s.regs.set j v := rfl

@[simp] theorem State.setReg_pc (s : State) (j : Fin Config.nreg) (v : Byte) :
    (s.setReg j v).pc = s.pc := rfl

@[simp] theorem State.setReg_ir (s : State) (j : Fin Config.nreg) (v : Byte) :
    (s.setReg j v).ir = s.ir := rfl

@[simp] theorem State.setReg_flags (s : State) (j : Fin Config.nreg) (v : Byte) :
    (s.setReg j v).flags = s.flags := rfl

@[simp] theorem State.setReg_status (s : State) (j : Fin Config.nreg) (v : Byte) :
    (s.setReg j v).status = s.status := rfl

@[simp] theorem State.setReg_faultInfo (s : State) (j : Fin Config.nreg) (v : Byte) :
    (s.setReg j v).faultInfo = s.faultInfo := rfl

@[simp] theorem State.setReg_mem (s : State) (j : Fin Config.nreg) (v : Byte) :
    (s.setReg j v).mem = s.mem := rfl

@[simp] theorem State.setReg_readAnswers (s : State) (j : Fin Config.nreg) (v : Byte) :
    (s.setReg j v).readAnswers = s.readAnswers := rfl

@[simp] theorem State.setReg_writeAnswers (s : State) (j : Fin Config.nreg) (v : Byte) :
    (s.setReg j v).writeAnswers = s.writeAnswers := rfl

@[simp] theorem State.setReg_bus (s : State) (j : Fin Config.nreg) (v : Byte) :
    (s.setReg j v).bus = s.bus := rfl

@[simp] theorem State.setReg_freeDraws (s : State) (j : Fin Config.nreg) (v : Byte) :
    (s.setReg j v).freeDraws = s.freeDraws := rfl

@[simp] theorem raise_regs (i : FaultInfo) (s : State) : (raise i s).regs = s.regs := rfl

@[simp] theorem raise_pc (i : FaultInfo) (s : State) : (raise i s).pc = s.pc := rfl

@[simp] theorem raise_ir (i : FaultInfo) (s : State) : (raise i s).ir = s.ir := rfl

@[simp] theorem raise_flags (i : FaultInfo) (s : State) : (raise i s).flags = s.flags := rfl

@[simp] theorem raise_status (i : FaultInfo) (s : State) : (raise i s).status = .faulted i.kind := rfl

@[simp] theorem raise_faultInfo (i : FaultInfo) (s : State) : (raise i s).faultInfo = some i := rfl

@[simp] theorem raise_mem (i : FaultInfo) (s : State) : (raise i s).mem = s.mem := rfl

@[simp] theorem raise_readAnswers (i : FaultInfo) (s : State) : (raise i s).readAnswers = s.readAnswers := rfl

@[simp] theorem raise_writeAnswers (i : FaultInfo) (s : State) : (raise i s).writeAnswers = s.writeAnswers := rfl

@[simp] theorem raise_bus (i : FaultInfo) (s : State) : (raise i s).bus = s.bus := rfl

@[simp] theorem raise_freeDraws (i : FaultInfo) (s : State) : (raise i s).freeDraws = s.freeDraws := rfl

@[simp] theorem raiseDecodeError_regs (s : State) :
    (raiseDecodeError s).regs = s.regs := rfl

@[simp] theorem raiseDecodeError_pc (s : State) :
    (raiseDecodeError s).pc = s.pc := rfl

@[simp] theorem raiseDecodeError_ir (s : State) :
    (raiseDecodeError s).ir = s.ir := rfl

@[simp] theorem raiseDecodeError_flags (s : State) :
    (raiseDecodeError s).flags = s.flags := rfl

@[simp] theorem raiseDecodeError_status (s : State) :
    (raiseDecodeError s).status = .faulted .decodeError := rfl

@[simp] theorem raiseDecodeError_faultInfo (s : State) :
    (raiseDecodeError s).faultInfo = some (.decodeError s.ir (s.pc - 1#16)) := rfl

@[simp] theorem raiseDecodeError_mem (s : State) :
    (raiseDecodeError s).mem = s.mem := rfl

@[simp] theorem raiseDecodeError_readAnswers (s : State) :
    (raiseDecodeError s).readAnswers = s.readAnswers := rfl

@[simp] theorem raiseDecodeError_writeAnswers (s : State) :
    (raiseDecodeError s).writeAnswers = s.writeAnswers := rfl

@[simp] theorem raiseDecodeError_bus (s : State) :
    (raiseDecodeError s).bus = s.bus := rfl

@[simp] theorem raiseDecodeError_freeDraws (s : State) :
    (raiseDecodeError s).freeDraws = s.freeDraws := rfl

@[simp] theorem applyReset_regs (s : State) : (applyReset s).regs = State.reset.regs := rfl

@[simp] theorem applyReset_pc (s : State) : (applyReset s).pc = State.reset.pc := rfl

@[simp] theorem applyReset_ir (s : State) : (applyReset s).ir = State.reset.ir := rfl

@[simp] theorem applyReset_flags (s : State) : (applyReset s).flags = State.reset.flags := rfl

@[simp] theorem applyReset_status (s : State) : (applyReset s).status = State.reset.status := rfl

@[simp] theorem applyReset_faultInfo (s : State) : (applyReset s).faultInfo = State.reset.faultInfo := rfl

@[simp] theorem applyReset_mem (s : State) : (applyReset s).mem = s.mem := rfl

@[simp] theorem applyReset_readAnswers (s : State) : (applyReset s).readAnswers = s.readAnswers := rfl

@[simp] theorem applyReset_writeAnswers (s : State) : (applyReset s).writeAnswers = s.writeAnswers := rfl

@[simp] theorem applyReset_bus (s : State) : (applyReset s).bus = State.reset.bus := rfl

@[simp] theorem applyReset_freeDraws (s : State) : (applyReset s).freeDraws = s.freeDraws := rfl

@[simp] theorem aluInto_regs (c : Bool) (s : State) :
    (aluInto c s).regs = s.regs.set aluDst (aluResult (s.reg aluA) (s.reg aluB) c) := rfl

@[simp] theorem aluInto_pc (c : Bool) (s : State) :
    (aluInto c s).pc = s.pc := rfl

@[simp] theorem aluInto_ir (c : Bool) (s : State) :
    (aluInto c s).ir = s.ir := rfl

@[simp] theorem aluInto_flags (c : Bool) (s : State) :
    (aluInto c s).flags = aluFlags (s.reg aluA) (s.reg aluB) c := rfl

@[simp] theorem aluInto_status (c : Bool) (s : State) :
    (aluInto c s).status = s.status := rfl

@[simp] theorem aluInto_faultInfo (c : Bool) (s : State) :
    (aluInto c s).faultInfo = s.faultInfo := rfl

@[simp] theorem aluInto_mem (c : Bool) (s : State) :
    (aluInto c s).mem = s.mem := rfl

@[simp] theorem aluInto_readAnswers (c : Bool) (s : State) :
    (aluInto c s).readAnswers = s.readAnswers := rfl

@[simp] theorem aluInto_writeAnswers (c : Bool) (s : State) :
    (aluInto c s).writeAnswers = s.writeAnswers := rfl

@[simp] theorem aluInto_bus (c : Bool) (s : State) :
    (aluInto c s).bus = s.bus := rfl

@[simp] theorem aluInto_freeDraws (c : Bool) (s : State) :
    (aluInto c s).freeDraws = s.freeDraws := rfl

/-- The registers after a fault are those before it. -/
@[simp] theorem raise_reg (i : FaultInfo) (s : State) (j : Fin Config.nreg) :
    (raise i s).reg j = s.reg j := rfl

@[simp] theorem raiseDecodeError_reg (s : State) (j : Fin Config.nreg) :
    (raiseDecodeError s).reg j = s.reg j := rfl

/-- An ALU instruction writes R0 only. -/
theorem aluInto_reg (c : Bool) (s : State) (j : Fin Config.nreg) :
    (aluInto c s).reg j =
      if j = aluDst then aluResult (s.reg aluA) (s.reg aluB) c else s.reg j :=
  State.reg_setReg s aluDst j _

end Sys2Proof.Machine
end

