-- ==== Sys2Proof/Laws/Ops.lean ====
section
/-!
SUPPORT. One lemma per shared operation that says what it answers in each case: the incrementer, a
memory transaction under each answer of the memory, latching a byte, and register selection.
-/

namespace Sys2Proof.Machine

theorem inc_of_ne (w : PcWrap) {p : Addr} (h : p ≠ 0xFFFF#16) : inc w p = some (p + 1#16) := by
  simp [inc, h]

theorem inc_top : inc Config.pcWrap 0xFFFF#16 = none := rfl

/-- `ReadsOk` one read at a time. -/
theorem State.readsOk_succ {n : Nat} {s : State} (h : s.ReadsOk (n + 1)) :
    s.readAnswers.headD .ok = .ok ∧ ∀ a ∈ s.readAnswers.tail.take n, a = ReadAnswer.ok := by
  cases hr : s.readAnswers with
  | nil => simp
  | cons x xs =>
    simpa only [ReadsOk, hr, List.take_succ_cons, List.mem_cons, forall_eq_or_imp,
      List.headD_cons, List.tail_cons] using h

theorem State.headD_of_readsOk {n : Nat} {s : State} (h : s.ReadsOk (n + 1)) :
    s.readAnswers.headD .ok = .ok := (State.readsOk_succ h).1

theorem State.headD_tail_of_readsOk {n : Nat} {s : State} (h : s.ReadsOk (n + 2)) :
    s.readAnswers.tail.headD .ok = .ok := by
  have := (State.readsOk_succ h).2
  cases hr : s.readAnswers.tail with
  | nil => rfl
  | cons x xs =>
    rw [hr] at this
    simpa using this x (by simp)

theorem State.headD_of_writesOk {n : Nat} {s : State} (h : s.WritesOk (n + 1)) :
    s.writeAnswers.headD .ok = .ok := by
  cases hr : s.writeAnswers with
  | nil => rfl
  | cons x xs => simpa using h x (by simp [hr])

theorem memRead_ok (kind : ReadKind) (a : Addr) {s : State}
    (h : s.readAnswers.headD .ok = .ok) :
    memRead kind a s = .value (Memory.read s.mem a)
      { s with
        readAnswers := s.readAnswers.tail
        bus := .read kind a (.byte (Memory.read s.mem a)) :: s.bus } := by
  simp only [memRead, h]

theorem memRead_corruption (kind : ReadKind) (a : Addr) {s : State}
    (h : s.readAnswers.headD .ok = .corruption) :
    memRead kind a s = .raised (raise (.memCorruption a kind)
      { s with
        readAnswers := s.readAnswers.tail
        bus := .read kind a .corruption :: s.bus }) := by
  simp only [memRead, h]

theorem memRead_unavailable (kind : ReadKind) (a : Addr) {s : State}
    (h : s.readAnswers.headD .ok = .unavailable) :
    memRead kind a s = .raised (raise (.memUnavailable a .read)
      { s with
        readAnswers := s.readAnswers.tail
        bus := .read kind a .unavailable :: s.bus }) := by
  simp only [memRead, h]

theorem memRead_never (kind : ReadKind) (a : Addr) {s : State}
    (h : s.readAnswers.headD .ok = .never) :
    memRead kind a s = .stuck (.read kind a) := by
  simp only [memRead, h]

theorem writeContract_ok (a : Addr) (v : Byte) {s : State} (h : s.writeAnswers.headD .ok = .ok) :
    writeContract a v s = some (.done,
      { s with writeAnswers := s.writeAnswers.tail, mem := Memory.write s.mem a v }) := by
  simp only [writeContract, h]

theorem writeContract_unavailable (a : Addr) (v : Byte) {s : State}
    (h : s.writeAnswers.headD .ok = .unavailable) :
    writeContract a v s = some (.unavailable,
      { s with
        writeAnswers := s.writeAnswers.tail
        mem := Memory.write s.mem a (Config.failedWriteByte s.freeDraws)
        freeDraws := s.freeDraws + 1 }) := by
  simp only [writeContract, h]

theorem writeContract_never (a : Addr) (v : Byte) {s : State}
    (h : s.writeAnswers.headD .ok = .never) : writeContract a v s = none := by
  simp only [writeContract, h]

theorem memWrite_ok (a : Addr) (v : Byte) {s : State} (h : s.writeAnswers.headD .ok = .ok) :
    memWrite a v s = .value ()
      { s with
        writeAnswers := s.writeAnswers.tail
        mem := Memory.write s.mem a v
        bus := .write a v .done :: s.bus } := by
  simp only [memWrite, writeContract_ok _ _ h]

theorem memWrite_unavailable (a : Addr) (v : Byte) {s : State}
    (h : s.writeAnswers.headD .ok = .unavailable) :
    memWrite a v s = .raised (raise (.memUnavailable a .write)
      { s with
        writeAnswers := s.writeAnswers.tail
        mem := Memory.write s.mem a (Config.failedWriteByte s.freeDraws)
        freeDraws := s.freeDraws + 1
        bus := .write a v .unavailable :: s.bus }) := by
  simp only [memWrite, writeContract_unavailable _ _ h]

theorem memWrite_never (a : Addr) (v : Byte) {s : State}
    (h : s.writeAnswers.headD .ok = .never) : memWrite a v s = .stuck (.write a v) := by
  simp only [memWrite, writeContract_never _ _ h]

theorem latch_of_ne (b : Byte) {s : State} (h : s.pc ≠ 0xFFFF#16) :
    latch b s = .value b { s with ir := b, pc := s.pc + 1#16 } := by
  simp only [latch, inc_of_ne _ h]

theorem latch_top (b : Byte) {s : State} (h : s.pc = 0xFFFF#16) :
    latch b s = .raised (raise (.pcOverflow 0xFFFF#16) { s with ir := b }) := by
  simp only [latch, h, inc_top]

/-- A register the machine has. -/
theorem withReg_of_number {r : Reg} {j : Fin Config.nreg} (h : r.number = j.val) (s : State)
    (k : Fin Config.nreg → Host.Outcome State Fault Refusal) : withReg r s k = k j := by
  have hj : r.number < Config.nreg := h ▸ j.isLt
  rw [withReg, dif_pos hj]
  congr 1
  exact Fin.ext h

/-- A register the machine does not have. -/
theorem withReg_of_not {r : Reg} (h : ¬ r.number < Config.nreg) (s : State)
    (k : Fin Config.nreg → Host.Outcome State Fault Refusal) :
    withReg r s k = .next (raiseDecodeError s) := by
  rw [withReg, dif_neg h]

/-! Every operation that changes memory keeps its canonical form. -/

theorem reset_wf : Memory.wf State.reset.mem = true := rfl

/-- A write through the contract keeps the canonical form, whatever the memory replies. -/
theorem writeContract_wf {a : Addr} {v : Byte} {reply : WriteReply} {s t : State}
    (h : Memory.wf s.mem = true) (ht : writeContract a v s = some (reply, t)) :
    Memory.wf t.mem = true := by
  simp only [writeContract] at ht
  split at ht <;> cases ht <;> exact Memory.write_wf _ _ h

/-- `memWrite` keeps the canonical form, whether the memory accepts the write or not. -/
theorem memWrite_wf {a : Addr} {v : Byte} {s t : State} (h : Memory.wf s.mem = true)
    (ht : memWrite a v s = .value () t ∨ memWrite a v s = .raised t) :
    Memory.wf t.mem = true := by
  simp only [memWrite] at ht
  split at ht
  · have := writeContract_wf h ‹_›
    rcases ht with ht | ht <;> cases ht
    exact this
  · have := writeContract_wf h ‹_›
    rcases ht with ht | ht <;> cases ht
    exact this
  · rcases ht with ht | ht <;> cases ht

theorem placeAtPc_wf (b0 b1 : Byte) {s : State} (h : Memory.wf s.mem = true) :
    Memory.wf (placeAtPc b0 b1 s).mem = true :=
  Memory.write_wf _ _ (Memory.write_wf _ _ h)

end Sys2Proof.Machine
end

