-- ==== Sys2Proof/Laws/Loader.lean ====
section
/-!
SUPPORT. The loader writes cell by cell through the memory's contract: what loading one more cell
does under each answer of the memory, that a memory that accepts every write loads every program,
and that loading keeps the canonical form.
-/

namespace Sys2Proof.Machine

theorem loadCells_ok (a : Addr) (v : Byte) (cells : List (Addr × Byte)) {s : State}
    (h : s.writeAnswers.headD .ok = .ok) :
    loadCells ((a, v) :: cells) s =
      loadCells cells
        { s with writeAnswers := s.writeAnswers.tail, mem := Memory.write s.mem a v } := by
  simp only [loadCells, writeContract_ok _ _ h]

theorem loadCells_unavailable (a : Addr) (v : Byte) (cells : List (Addr × Byte)) {s : State}
    (h : s.writeAnswers.headD .ok = .unavailable) :
    loadCells ((a, v) :: cells) s = .failed (.memUnavailable a) := by
  simp only [loadCells, writeContract_unavailable _ _ h]

theorem loadCells_never (a : Addr) (v : Byte) (cells : List (Addr × Byte)) {s : State}
    (h : s.writeAnswers.headD .ok = .never) :
    loadCells ((a, v) :: cells) s = .failed (.memoryNeverAnswers a) := by
  simp only [loadCells, writeContract_never _ _ h]

/-- The memory after the cells were written in order. -/
def writeCells (cells : List (Addr × Byte)) (m : List Host.Cell) : List Host.Cell :=
  cells.foldl (fun m c => Memory.write m c.1 c.2) m

/-- `WritesOk` one write at a time. -/
theorem State.writesOk_succ {n : Nat} {s : State} (h : s.WritesOk (n + 1)) :
    s.writeAnswers.headD .ok = .ok ∧ ∀ a ∈ s.writeAnswers.tail.take n, a = WriteAnswer.ok := by
  cases hw : s.writeAnswers with
  | nil => simp
  | cons x xs =>
    simpa only [WritesOk, hw, List.take_succ_cons, List.mem_cons, forall_eq_or_imp,
      List.headD_cons, List.tail_cons] using h

/-- Cells that the memory accepts are written in order; then the rest are loaded. -/
theorem loadCells_append {cells rest : List (Addr × Byte)} {s : State}
    (h : s.WritesOk cells.length) :
    loadCells (cells ++ rest) s =
      loadCells rest
        { s with
          writeAnswers := s.writeAnswers.drop cells.length, mem := writeCells cells s.mem } := by
  induction cells generalizing s with
  | nil => rfl
  | cons c cells ih =>
    obtain ⟨ok, htail⟩ := State.writesOk_succ h
    replace htail : State.WritesOk cells.length
        { s with writeAnswers := s.writeAnswers.tail, mem := Memory.write s.mem c.1 c.2 } := htail
    rw [List.cons_append, loadCells_ok c.1 c.2 _ ok, ih htail]
    simp [writeCells]

theorem loadCells_of_writesOk {cells : List (Addr × Byte)} {s : State}
    (h : s.WritesOk cells.length) :
    loadCells cells s = .ready
      { s with
        writeAnswers := s.writeAnswers.drop cells.length, mem := writeCells cells s.mem } := by
  have := loadCells_append (rest := []) h
  rwa [List.append_nil] at this

theorem writeCells_wf {cells : List (Addr × Byte)} {m : List Host.Cell}
    (h : Memory.wf m = true) : Memory.wf (writeCells cells m) = true := by
  induction cells generalizing m with
  | nil => exact h
  | cons c cells ih => exact ih (Memory.write_wf _ _ h)

/-- Loading keeps the canonical form. -/
theorem loadCells_wf {cells : List (Addr × Byte)} {s t : State} (h : Memory.wf s.mem = true)
    (ht : loadCells cells s = .ready t) : Memory.wf t.mem = true := by
  induction cells generalizing s with
  | nil => cases ht; exact h
  | cons c cells ih =>
    simp only [loadCells] at ht
    split at ht
    · exact ih (writeContract_wf h ‹_›) ht
    · cases ht
    · cases ht

@[simp] theorem cellsFrom_length (at0 : Nat) (bytes : List Byte) :
    (cellsFrom at0 bytes).length = bytes.length := by
  induction bytes generalizing at0 with
  | nil => rfl
  | cons b bytes ih => simp [cellsFrom, ih]

theorem loadBytes_wf {bytes : List Byte} {s t : State} (h : Memory.wf s.mem = true)
    (ht : loadBytes bytes s = .ready t) : Memory.wf t.mem = true := by
  simp only [loadBytes] at ht
  split at ht
  · exact loadCells_wf h ht
  · cases ht

end Sys2Proof.Machine
end

