-- ==== Sys2Proof/Laws/PerInstr.lean ====
section
/-! SUPPORT. Statements about every instruction as syntax, one lemma per constructor of `Instr`. -/

namespace Sys2Proof.Laws.EncodeLength

/-- The encoder writes as many bytes as the instruction has: two for an LDI, one for any other
(spec 30_encoding.md R80, R84). -/
def Statement (i : Instr) : Prop := (encode i).length = i.length

theorem nop (u : Nibble) : Statement (.nop u) := rfl

theorem ldi (d : Reg) (imm : Byte) : Statement (.ldi d imm) := rfl

theorem ldx (d : Reg) : Statement (.ldx d) := rfl

theorem stx (r : Reg) : Statement (.stx r) := rfl

theorem add : Statement .add := rfl

theorem adc : Statement .adc := rfl

theorem movin (p : Primary) (r : Reg) : Statement (.movin p r) := rfl

theorem movout (p : Primary) (d : Reg) : Statement (.movout p d) := rfl

theorem halt (u : Nibble) : Statement (.halt u) := rfl

end Sys2Proof.Laws.EncodeLength
end

