-- ==== Sys2Proof/Laws/Step.lean ====
section
/-!
SUPPORT. Everything a step can do, said once: `StepCase s t` lists the ways in which a step from `s`
reaches `t`, and `step_eq_next_iff` says that these are all and that each is taken. Statements about
every step follow from it by cases; statements that two steps agree follow by naming the case.
-/

namespace Sys2Proof.Machine

/-- The memory answers the read of `a` with an error; the fault record and the reply it gives. -/
def ReadFails (kind : ReadKind) (a : Addr) (answer : ReadAnswer) (info : FaultInfo)
    (reply : ReadReply) : Prop :=
  answer = .corruption ∧ info = .memCorruption a kind ∧ reply = .corruption ∨
    answer = .unavailable ∧ info = .memUnavailable a .read ∧ reply = .unavailable

theorem memRead_fails {kind : ReadKind} {a : Addr} {s : State} {info : FaultInfo}
    {reply : ReadReply} (h : ReadFails kind a (s.readAnswers.headD .ok) info reply) :
    memRead kind a s = .raised (raise info
      { s with readAnswers := s.readAnswers.tail, bus := .read kind a reply :: s.bus }) := by
  rcases h with ⟨h, rfl, rfl⟩ | ⟨h, rfl, rfl⟩
  · exact memRead_corruption kind a h
  · exact memRead_unavailable kind a h

/-- What a read answers: its byte, an error, or nothing ever. -/
theorem memRead_cases (kind : ReadKind) (a : Addr) (s : State) :
    s.readAnswers.headD .ok = .ok ∨
      (∃ info reply, ReadFails kind a (s.readAnswers.headD .ok) info reply) ∨
      s.readAnswers.headD .ok = .never := by
  cases h : s.readAnswers.headD .ok with
  | ok => exact .inl rfl
  | corruption => exact .inr (.inl ⟨_, _, .inl ⟨rfl, rfl, rfl⟩⟩)
  | unavailable => exact .inr (.inl ⟨_, _, .inr ⟨rfl, rfl, rfl⟩⟩)
  | never => exact .inr (.inr rfl)

/-- A fault record of a failed read is of one of the two memory errors. -/
theorem ReadFails.kind_eq {kind : ReadKind} {a : Addr} {answer : ReadAnswer} {info : FaultInfo}
    {reply : ReadReply} (h : ReadFails kind a answer info reply) :
    info.kind = .memCorruption ∨ info.kind = .memUnavailable := by
  rcases h with ⟨-, rfl, -⟩ | ⟨-, rfl, -⟩
  · exact .inl rfl
  · exact .inr rfl

theorem ReadFails.not_byte {kind : ReadKind} {a : Addr} {answer : ReadAnswer} {info : FaultInfo}
    {reply : ReadReply} (h : ReadFails kind a answer info reply) (b : Byte) : reply ≠ .byte b := by
  rcases h with ⟨-, -, rfl⟩ | ⟨-, -, rfl⟩ <;> simp

/-- A running step gets past its fetch, and the first byte says `f`. -/
structure State.Reaches (s : State) (f : FirstByte) : Prop where
  running : s.status = .running
  ok : s.readAnswers.headD .ok = .ok
  notTop : s.pc ≠ 0xFFFF#16
  first : decodeFirst Config.nreg s.nextByte = .accepted f

/-- The immediate of an LDI at `pc`. -/
def State.immByte (s : State) : Byte := Memory.read s.mem (s.pc + 1#16)

/-- The ways in which a step from `s` reaches a next state. -/
inductive StepCase (s : State) : State → Prop where
  | idle (h : s.status ≠ .running) : StepCase s s
  | fetchFails {info : FaultInfo} {reply : ReadReply} (h : s.status = .running)
      (hf : ReadFails .instruction s.pc (s.readAnswers.headD .ok) info reply) :
      StepCase s (raise info
        { s with
          readAnswers := s.readAnswers.tail, bus := .read .instruction s.pc reply :: s.bus })
  | overflow (h : s.status = .running) (ok : s.readAnswers.headD .ok = .ok)
      (top : s.pc = 0xFFFF#16) :
      StepCase s (raise (.pcOverflow 0xFFFF#16)
        { s with
          ir := s.nextByte
          readAnswers := s.readAnswers.tail
          bus := .read .instruction s.pc (.byte s.nextByte) :: s.bus })
  | illegal {e : Reject} (h : s.status = .running) (ok : s.readAnswers.headD .ok = .ok)
      (notTop : s.pc ≠ 0xFFFF#16) (hd : decodeFirst Config.nreg s.nextByte = .rejected e) :
      StepCase s (raise (.decodeError s.nextByte s.pc) (s.afterFetch 1))
  | nop {u : Nibble} (h : s.Reaches (.whole (.nop u))) : StepCase s (s.afterFetch 1)
  | halt {u : Nibble} (h : s.Reaches (.whole (.halt u))) :
      StepCase s { s.afterFetch 1 with status := .halted }
  | ldi {d : Reg} {j : Fin Config.nreg} (h : s.Reaches (.ldi d)) (hj : d.number = j.val)
      (ok : s.readAnswers.tail.headD .ok = .ok) (notLast : s.pc ≠ 0xFFFE#16) :
      StepCase s
        (({ s.afterFetch 2 with ir := s.immByte, pc := s.pc + 2#16 } : State).setReg j s.immByte)
  | ldiFails {d : Reg} {info : FaultInfo} {reply : ReadReply} (h : s.Reaches (.ldi d))
      (hf : ReadFails .immediate (s.pc + 1#16) (s.readAnswers.tail.headD .ok) info reply) :
      StepCase s (raise info
        { s.afterFetch 1 with
          readAnswers := s.readAnswers.tail.tail
          bus := .read .immediate (s.pc + 1#16) reply :: (s.afterFetch 1).bus })
  | ldiOverflow {d : Reg} (h : s.Reaches (.ldi d))
      (ok : s.readAnswers.tail.headD .ok = .ok) (last : s.pc = 0xFFFE#16) :
      StepCase s (raise (.pcOverflow 0xFFFF#16) { s.afterFetch 2 with ir := s.immByte })
  | ldx {d : Reg} {j : Fin Config.nreg} (h : s.Reaches (.whole (.ldx d))) (hj : d.number = j.val)
      (ok : s.readAnswers.tail.headD .ok = .ok) :
      StepCase s
        (({ s.afterFetch 1 with
            readAnswers := s.readAnswers.tail.tail
            bus := .read .data s.indAddr (.byte (Memory.read s.mem s.indAddr)) ::
              (s.afterFetch 1).bus } : State).setReg j (Memory.read s.mem s.indAddr))
  | ldxFails {d : Reg} {info : FaultInfo} {reply : ReadReply} (h : s.Reaches (.whole (.ldx d)))
      (hf : ReadFails .data s.indAddr (s.readAnswers.tail.headD .ok) info reply) :
      StepCase s (raise info
        { s.afterFetch 1 with
          readAnswers := s.readAnswers.tail.tail
          bus := .read .data s.indAddr reply :: (s.afterFetch 1).bus })
  | stx {r : Reg} {j : Fin Config.nreg} (h : s.Reaches (.whole (.stx r))) (hj : r.number = j.val)
      (ok : s.writeAnswers.headD .ok = .ok) :
      StepCase s
        { s.afterFetch 1 with
          writeAnswers := s.writeAnswers.tail
          mem := Memory.write s.mem s.indAddr (s.reg j)
          bus := .write s.indAddr (s.reg j) .done :: (s.afterFetch 1).bus }
  | stxFails {r : Reg} {j : Fin Config.nreg} (h : s.Reaches (.whole (.stx r)))
      (hj : r.number = j.val) (hf : s.writeAnswers.headD .ok = .unavailable) :
      StepCase s (raise (.memUnavailable s.indAddr .write)
        { s.afterFetch 1 with
          writeAnswers := s.writeAnswers.tail
          mem := Memory.write s.mem s.indAddr (Config.failedWriteByte s.freeDraws)
          freeDraws := s.freeDraws + 1
          bus := .write s.indAddr (s.reg j) .unavailable :: (s.afterFetch 1).bus })
  | add (h : s.Reaches (.whole .add)) : StepCase s (aluInto false (s.afterFetch 1))
  | adc (h : s.Reaches (.whole .adc)) : StepCase s (aluInto s.flags.c (s.afterFetch 1))
  | movin {p : Primary} {r : Reg} {j : Fin Config.nreg} (h : s.Reaches (.whole (.movin p r)))
      (hj : r.number = j.val) : StepCase s ((s.afterFetch 1).setReg (primary p) (s.reg j))
  | movout {p : Primary} {d : Reg} {j : Fin Config.nreg} (h : s.Reaches (.whole (.movout p d)))
      (hj : d.number = j.val) : StepCase s ((s.afterFetch 1).setReg j (s.reg (primary p)))

/-- `fetch` of a byte the memory gives, below the top of the address space. -/
theorem fetch_ok (kind : ReadKind) {s : State} (ok : s.readAnswers.headD .ok = .ok)
    (h : s.pc ≠ 0xFFFF#16) :
    fetch kind s = .value s.nextByte
      { s with
        ir := s.nextByte
        pc := s.pc + 1#16
        readAnswers := s.readAnswers.tail
        bus := .read kind s.pc (.byte s.nextByte) :: s.bus } := by
  rw [fetch, memRead_ok _ _ ok]
  exact latch_of_ne _ h

/-- `fetch` of a byte the memory gives, at the top of the address space. -/
theorem fetch_top (kind : ReadKind) {s : State} (ok : s.readAnswers.headD .ok = .ok)
    (h : s.pc = 0xFFFF#16) :
    fetch kind s = .raised (raise (.pcOverflow 0xFFFF#16)
      { s with
        ir := s.nextByte
        readAnswers := s.readAnswers.tail
        bus := .read kind s.pc (.byte s.nextByte) :: s.bus }) := by
  rw [fetch, memRead_ok _ _ ok]
  exact latch_top _ h

theorem State.afterFetch_one (s : State) :
    s.afterFetch 1 =
      { s with
        ir := s.nextByte
        pc := s.pc + 1#16
        readAnswers := s.readAnswers.tail
        bus := .read .instruction s.pc (.byte s.nextByte) :: s.bus } := by
  simp [State.afterFetch]

theorem State.afterFetch_two (s : State) :
    s.afterFetch 2 =
      { s with
        ir := s.nextByte
        pc := s.pc + 1#16
        readAnswers := s.readAnswers.tail.tail
        bus := .read .immediate (s.pc + 1#16) (.byte s.immByte) ::
          .read .instruction s.pc (.byte s.nextByte) :: s.bus } := by
  cases h : s.readAnswers <;> simp [State.afterFetch, State.immByte, h]

/-- A running step whose fetch brings a byte, below the top of the address space. -/
theorem fetchInstr_ok {s : State} (ok : s.readAnswers.headD .ok = .ok) (h : s.pc ≠ 0xFFFF#16) :
    fetchInstr s =
      match decodeFirst Config.nreg s.nextByte with
      | .rejected _ => .raised (raiseDecodeError (s.afterFetch 1))
      | .accepted (.whole i) => .value i (s.afterFetch 1)
      | .accepted (.ldi d) =>
        (memRead .immediate (s.pc + 1#16) (s.afterFetch 1)).bind
          fun imm s2 => .value (.ldi d imm) s2 := by
  rw [fetchInstr, fetch_ok _ ok h, State.afterFetch_one]; rfl

/-- A step that gets past its fetch runs the whole instruction its first byte is. -/
theorem step_whole {s : State} {i : Instr} (h : s.Reaches (.whole i)) :
    step s = exec i (s.afterFetch 1) := by
  simp only [step, h.running, fetchInstr_ok h.ok h.notTop, h.first, Result.andThen]

/-- A step that gets past its fetch and finds an LDI reads the immediate, then executes. -/
theorem step_ldi {s : State} {d : Reg} (h : s.Reaches (.ldi d))
    (ok : s.readAnswers.tail.headD .ok = .ok) :
    step s = exec (.ldi d s.immByte) (s.afterFetch 2) := by
  have ok' : (s.afterFetch 1).readAnswers.headD .ok = .ok := by
    simpa [State.afterFetch_one] using ok
  simp only [step, h.running, fetchInstr_ok h.ok h.notTop, h.first, memRead_ok _ _ ok',
    Result.bind, Result.andThen]
  rw [State.afterFetch_two, State.afterFetch_one]; rfl

theorem step_ldiFails {s : State} {d : Reg} {info : FaultInfo} {reply : ReadReply}
    (h : s.Reaches (.ldi d))
    (hf : ReadFails .immediate (s.pc + 1#16) (s.readAnswers.tail.headD .ok) info reply) :
    step s = .next (raise info
      { s.afterFetch 1 with
        readAnswers := s.readAnswers.tail.tail
        bus := .read .immediate (s.pc + 1#16) reply :: (s.afterFetch 1).bus }) := by
  have hf' : ReadFails .immediate (s.pc + 1#16) ((s.afterFetch 1).readAnswers.headD .ok) info
      reply := by simpa [State.afterFetch_one] using hf
  simp only [step, h.running, fetchInstr_ok h.ok h.notTop, h.first, memRead_fails hf',
    Result.bind, Result.andThen]
  rw [State.afterFetch_one]

theorem step_illegal {s : State} {e : Reject} (h : s.status = .running)
    (ok : s.readAnswers.headD .ok = .ok) (notTop : s.pc ≠ 0xFFFF#16)
    (hd : decodeFirst Config.nreg s.nextByte = .rejected e) :
    step s = .next (raise (.decodeError s.nextByte s.pc) (s.afterFetch 1)) := by
  have hp : s.pc + 1#16 - 1#16 = s.pc := by simp
  simp only [step, h, fetchInstr_ok ok notTop, hd, Result.andThen, raiseDecodeError]
  rw [State.afterFetch_one, hp]

theorem step_overflow {s : State} (h : s.status = .running)
    (ok : s.readAnswers.headD .ok = .ok) (top : s.pc = 0xFFFF#16) :
    step s = .next (raise (.pcOverflow 0xFFFF#16)
      { s with
        ir := s.nextByte
        readAnswers := s.readAnswers.tail
        bus := .read .instruction s.pc (.byte s.nextByte) :: s.bus }) := by
  simp only [step, h, fetchInstr, fetch_top _ ok top, Result.bind, Result.andThen]

theorem step_fetchFails {s : State} {info : FaultInfo} {reply : ReadReply}
    (h : s.status = .running)
    (hf : ReadFails .instruction s.pc (s.readAnswers.headD .ok) info reply) :
    step s = .next (raise info
      { s with
        readAnswers := s.readAnswers.tail, bus := .read .instruction s.pc reply :: s.bus }) := by
  simp only [step, h, fetchInstr, fetch, memRead_fails hf, Result.bind, Result.andThen]

theorem step_idle {s : State} (h : s.status ≠ .running) : step s = .next s := by
  cases hs : s.status <;> simp_all [step]

/-- What `exec` answers for each instruction of this hardware, one lemma each. -/
theorem exec_ldi_ok {d : Reg} {j : Fin Config.nreg} (hj : d.number = j.val) (imm : Byte)
    {s : State} (h : s.pc ≠ 0xFFFF#16) :
    exec (.ldi d imm) s =
      .next (({ s with ir := imm, pc := s.pc + 1#16 } : State).setReg j imm) := by
  simp only [exec, execLdi, withReg_of_number hj, latch_of_ne _ h, Result.andThen]

theorem exec_ldi_top {d : Reg} {j : Fin Config.nreg} (hj : d.number = j.val) (imm : Byte)
    {s : State} (h : s.pc = 0xFFFF#16) :
    exec (.ldi d imm) s = .next (raise (.pcOverflow 0xFFFF#16) { s with ir := imm }) := by
  simp only [exec, execLdi, withReg_of_number hj, latch_top _ h, Result.andThen]

theorem exec_ldx_ok {d : Reg} {j : Fin Config.nreg} (hj : d.number = j.val) {s : State}
    (ok : s.readAnswers.headD .ok = .ok) :
    exec (.ldx d) s = .next
      (({ s with
          readAnswers := s.readAnswers.tail
          bus := .read .data s.indAddr (.byte (Memory.read s.mem s.indAddr)) :: s.bus } :
        State).setReg j (Memory.read s.mem s.indAddr)) := by
  simp only [exec, execLdx, withReg_of_number hj, memRead_ok _ _ ok, Result.andThen]

theorem exec_ldx_fails {d : Reg} {j : Fin Config.nreg} (hj : d.number = j.val) {s : State}
    {info : FaultInfo} {reply : ReadReply}
    (hf : ReadFails .data s.indAddr (s.readAnswers.headD .ok) info reply) :
    exec (.ldx d) s = .next (raise info
      { s with readAnswers := s.readAnswers.tail, bus := .read .data s.indAddr reply :: s.bus }) := by
  simp only [exec, execLdx, withReg_of_number hj, memRead_fails hf, Result.andThen]

theorem exec_stx_ok {r : Reg} {j : Fin Config.nreg} (hj : r.number = j.val) {s : State}
    (ok : s.writeAnswers.headD .ok = .ok) :
    exec (.stx r) s = .next
      { s with
        writeAnswers := s.writeAnswers.tail
        mem := Memory.write s.mem s.indAddr (s.reg j)
        bus := .write s.indAddr (s.reg j) .done :: s.bus } := by
  simp only [exec, execStx, withReg_of_number hj, memWrite_ok _ _ ok, Result.andThen]

theorem exec_stx_fails {r : Reg} {j : Fin Config.nreg} (hj : r.number = j.val) {s : State}
    (hf : s.writeAnswers.headD .ok = .unavailable) :
    exec (.stx r) s = .next (raise (.memUnavailable s.indAddr .write)
      { s with
        writeAnswers := s.writeAnswers.tail
        mem := Memory.write s.mem s.indAddr (Config.failedWriteByte s.freeDraws)
        freeDraws := s.freeDraws + 1
        bus := .write s.indAddr (s.reg j) .unavailable :: s.bus }) := by
  simp only [exec, execStx, withReg_of_number hj, memWrite_unavailable _ _ hf, Result.andThen]

theorem exec_movin_ok (p : Primary) {r : Reg} {j : Fin Config.nreg} (hj : r.number = j.val)
    (s : State) : exec (.movin p r) s = .next (s.setReg (primary p) (s.reg j)) := by
  simp only [exec, execMovin, withReg_of_number hj]

theorem exec_movout_ok (p : Primary) {d : Reg} {j : Fin Config.nreg} (hj : d.number = j.val)
    (s : State) : exec (.movout p d) s = .next (s.setReg j (s.reg (primary p))) := by
  simp only [exec, execMovout, withReg_of_number hj]

/-- Before the top of the address space but for one byte, `pc + 1` is the top. -/
theorem pc_succ_eq_top {p : Addr} : p + 1#16 = 0xFFFF#16 ↔ p = 0xFFFE#16 := by
  constructor <;> intro h <;> bv_omega

/-- Each case is what the step does. -/
theorem StepCase.step_eq {s t : State} (h : StepCase s t) : step s = .next t := by
  cases h with
  | idle h => exact step_idle h
  | fetchFails h hf => exact step_fetchFails h hf
  | overflow h ok top => exact step_overflow h ok top
  | illegal h ok notTop hd => exact step_illegal h ok notTop hd
  | nop h => rw [step_whole h]; rfl
  | halt h => rw [step_whole h]; rfl
  | ldi h hj ok notLast =>
    rw [step_ldi h ok, exec_ldi_ok hj]
    · rw [State.afterFetch_two, BitVec.add_assoc]; rfl
    · rw [State.afterFetch_two]; exact mt pc_succ_eq_top.1 notLast
  | ldiFails h hf => exact step_ldiFails h hf
  | ldiOverflow h ok last =>
    have hr := (agrees_of_decodeFirst h.first).2
    rw [step_ldi h ok, exec_ldi_top (j := ⟨_, hr⟩) rfl]
    rw [State.afterFetch_two]; exact pc_succ_eq_top.2 last
  | ldx h hj ok =>
    rw [step_whole h, exec_ldx_ok hj] <;> rw [State.afterFetch_one]
    · rfl
    · exact ok
  | ldxFails h hf =>
    have hr := (agrees_of_decodeFirst h.first).2
    rw [step_whole h, exec_ldx_fails (j := ⟨_, hr⟩) rfl (info := _) (reply := _)]
    · rw [State.afterFetch_one]; rfl
    · rw [State.afterFetch_one]; exact hf
  | stx h hj ok =>
    rw [step_whole h, exec_stx_ok hj] <;> rw [State.afterFetch_one]
    · rfl
    · exact ok
  | stxFails h hj hf =>
    rw [step_whole h, exec_stx_fails hj] <;> rw [State.afterFetch_one]
    · rfl
    · exact hf
  | add h => rw [step_whole h]; rfl
  | adc h => rw [step_whole h]; rfl
  | movin h hj => rw [step_whole h, exec_movin_ok _ hj]; rfl
  | movout h hj => rw [step_whole h, exec_movout_ok _ hj]; rfl

/-- An answer that the list gives first, other than what an empty list gives, is in the list. -/
theorem mem_of_headD_eq {α : Type} {l : List α} {d x : α} (h : l.headD d = x) (hx : d ≠ x) :
    x ∈ l := by
  cases l with
  | nil => exact absurd h hx
  | cons y l => simp only [List.headD_cons] at h; simp [h]

theorem not_memoryAnswers_of_read {s : State} (h : ReadAnswer.never ∈ s.readAnswers) :
    ¬ s.MemoryAnswers := fun ha => ha.1 h

/-- A step reaches a next state in one of the ways listed, unless the memory never answers. -/
theorem stepCase_or_stuck (s : State) :
    (∃ t, StepCase s t) ∨
      (∃ r, step s = .fault (.memoryNeverAnswers r)) ∧ ¬ s.MemoryAnswers := by
  by_cases h : s.status = .running
  swap
  · exact .inl ⟨s, .idle h⟩
  rcases memRead_cases .instruction s.pc s with ok | ⟨info, reply, hf⟩ | hn
  · by_cases top : s.pc = 0xFFFF#16
    · exact .inl ⟨_, .overflow h ok top⟩
    cases hd : decodeFirst Config.nreg s.nextByte with
    | rejected e => exact .inl ⟨_, .illegal h ok top hd⟩
    | accepted f =>
      have hr : s.Reaches f := ⟨h, ok, top, hd⟩
      have ha := agrees_of_decodeFirst hd
      cases f with
      | ldi d =>
        rcases memRead_cases .immediate (s.pc + 1#16) (s.afterFetch 1) with ok' | ⟨i, r, hf⟩ | hn
        · rw [State.afterFetch_one] at ok'
          by_cases last : s.pc = 0xFFFE#16
          · exact .inl ⟨_, .ldiOverflow hr ok' last⟩
          · exact .inl ⟨_, .ldi (j := ⟨_, ha.2⟩) hr rfl ok' last⟩
        · rw [State.afterFetch_one] at hf
          exact .inl ⟨_, .ldiFails hr hf⟩
        · refine .inr ⟨⟨.read .immediate (s.pc + 1#16), ?_⟩, ?_⟩
          · simp only [step, h, fetchInstr_ok ok top, hd, memRead_never _ _ hn, Result.bind,
              Result.andThen]
          · rw [State.afterFetch_one] at hn
            exact not_memoryAnswers_of_read
              (List.mem_of_mem_tail (mem_of_headD_eq hn (by decide)))
      | whole i =>
        cases i with
        | nop u => exact .inl ⟨_, .nop hr⟩
        | halt u => exact .inl ⟨_, .halt hr⟩
        | ldi d imm => exact ha.elim
        | ldx d =>
          rcases memRead_cases .data s.indAddr (s.afterFetch 1) with ok' | ⟨i, r, hf⟩ | hn
          · rw [State.afterFetch_one] at ok'
            exact .inl ⟨_, .ldx (j := ⟨_, ha.2⟩) hr rfl ok'⟩
          · rw [State.afterFetch_one] at hf
            exact .inl ⟨_, .ldxFails hr hf⟩
          · refine .inr ⟨⟨.read .data s.indAddr, ?_⟩, ?_⟩
            · rw [step_whole hr]
              simp only [exec, execLdx, withReg_of_number (j := ⟨_, ha.2⟩) rfl,
                memRead_never _ _ hn, Result.andThen]
              rfl
            · rw [State.afterFetch_one] at hn
              exact not_memoryAnswers_of_read
                (List.mem_of_mem_tail (mem_of_headD_eq hn (by decide)))
        | stx r =>
          cases hw : s.writeAnswers.headD .ok with
          | ok => exact .inl ⟨_, .stx (j := ⟨_, ha.2⟩) hr rfl hw⟩
          | unavailable => exact .inl ⟨_, .stxFails (j := ⟨_, ha.2⟩) hr rfl hw⟩
          | never =>
            refine .inr ⟨⟨.write s.indAddr (s.reg ⟨_, ha.2⟩), ?_⟩,
              fun ha => ha.2 (mem_of_headD_eq hw (by decide))⟩
            have hn : (s.afterFetch 1).writeAnswers.headD .ok = .never := hw
            rw [step_whole hr]
            simp only [exec, execStx, withReg_of_number (j := ⟨_, ha.2⟩) rfl,
              memWrite_never _ _ hn, Result.andThen]
            rfl
        | add => exact .inl ⟨_, .add hr⟩
        | adc => exact .inl ⟨_, .adc hr⟩
        | movin p r => exact .inl ⟨_, .movin (j := ⟨_, ha.2⟩) hr rfl⟩
        | movout p d => exact .inl ⟨_, .movout (j := ⟨_, ha.2⟩) hr rfl⟩
  · exact .inl ⟨_, .fetchFails h hf⟩
  · refine .inr ⟨⟨.read .instruction s.pc, ?_⟩,
      not_memoryAnswers_of_read (mem_of_headD_eq hn (by decide))⟩
    simp only [step, h, fetchInstr, fetch, memRead_never _ _ hn, Result.bind, Result.andThen]

/-- The cases are all there is. -/
theorem step_eq_next_iff {s t : State} : step s = .next t ↔ StepCase s t := by
  refine ⟨fun h => ?_, StepCase.step_eq⟩
  rcases stepCase_or_stuck s with ⟨t', ht⟩ | ⟨⟨r, hs⟩, -⟩
  · have := ht.step_eq
    rw [h] at this
    cases this
    exact ht
  · rw [h] at hs; cases hs

/-- A memory that answers every transaction lets every step reach a next state. -/
theorem step_next_of_memoryAnswers {s : State} (h : s.MemoryAnswers) : ∃ t, step s = .next t := by
  rcases stepCase_or_stuck s with ⟨t, ht⟩ | ⟨-, hn⟩
  · exact ⟨t, ht.step_eq⟩
  · exact absurd h hn

/-- A step uses up answers and adds none. -/
theorem StepCase.memoryAnswers {s t : State} (c : StepCase s t) (h : s.MemoryAnswers) :
    t.MemoryAnswers := by
  obtain ⟨h1, h2⟩ := h
  have t1 := mt List.mem_of_mem_tail h1
  have t2 := mt List.mem_of_mem_tail h2
  have t3 := mt List.mem_of_mem_tail t1
  cases c <;>
    simp [State.MemoryAnswers, raise, State.setReg, aluInto, State.afterFetch_one,
      State.afterFetch_two, h1, h2, t1, t2, t3]

/-- One step of a run, then the rest. -/
theorem run_succ_of_next {s t : State} (h : step s = .next t) (k : Nat) :
    Host.Core.run Sys2Proof.core (k + 1) s = Host.Core.run Sys2Proof.core k t := by
  simp only [Host.Core.run]
  rw [show Sys2Proof.core.step s = .next t from h]

end Sys2Proof.Machine
end

