-- ==== Sys2Proof/Tests/Slice0.lean ====
section
/-!
SUPPORT. Tests and witnesses. The expected results of the tests are the spec's own examples and
vectors (95_test_vectors.md; the row is named beside each test) or words written out from
30_encoding.md. Each `witness_<Name>` shows a state and operands that meet the hypotheses of
`Obligations.<Name>`, clause by clause at the boundary values.
-/

namespace Sys2Proof.Tests

open Sys2Proof.Machine

/-- The state after reset but for the registers, `pc` and the listed cells. -/
def start (x0 x1 x2 x3 : Byte) (p : Addr) (cells : List Host.Cell) : State :=
  { State.reset with regs := #v[x0, x1, x2, x3], pc := p, mem := cells }

/-- The outcome is a next state of which `p` holds. -/
def nextIs (o : Host.Outcome State Fault Refusal) (p : State → Bool) : Bool :=
  match o with
  | .next s => p s
  | .fault _ => false
  | .refused _ => false

/-- The four registers. -/
def xs (s : State) : List Byte := s.regs.toList

/-- The flags `1 0 1 0`. -/
def zc : Flags := ⟨true, false, true, false⟩

/-! ### WellFormed refuses a register that `NREG = 4` does not have -/

theorem test_wf_ldi_refused : (Instr.ldi .r4 0x00#8).wf = false := by decide

theorem test_wf_ldx_refused : (Instr.ldx .r4).wf = false := by decide

theorem test_wf_stx_refused : (Instr.stx .r7).wf = false := by decide

theorem test_wf_movin_refused : (Instr.movin .p1 .r4).wf = false := by decide

theorem test_wf_movout_refused : (Instr.movout .p0 .r5).wf = false := by decide

/-! ### Decoding words written out bit by bit: opcode, then operand -/

theorem test_decode_nop : decode [0b0000_1111#8] = .accepted (.nop 0xF#4, []) := by decide

theorem test_decode_ldi :
    decode [0b0001_0011#8, 0b1010_0101#8, 0x00#8] = .accepted (.ldi .r3 0xA5#8, [0x00#8]) := by
  decide

theorem test_decode_ldx : decode [0b0010_0010#8] = .accepted (.ldx .r2, []) := by decide

theorem test_decode_stx : decode [0b0011_0001#8] = .accepted (.stx .r1, []) := by decide

theorem test_decode_add : decode [0b0100_0000#8] = .accepted (.add, []) := by decide

theorem test_decode_adc : decode [0b0100_0001#8] = .accepted (.adc, []) := by decide

/-- Format M: `p` is bit 3 of the operand, the register its bits 2 to 0. -/
theorem test_decode_movin : decode [0b0110_1_011#8] = .accepted (.movin .p1 .r3, []) := by decide

theorem test_decode_movout : decode [0b0111_0_010#8] = .accepted (.movout .p0 .r2, []) := by decide

theorem test_decode_halt : decode [0b1111_0000#8] = .accepted (.halt 0x0#4, []) := by decide

/-- Rows T16, T22, T24, T26 and T30, each rejected under its own name. -/
theorem test_decode_rejects :
    decode [0x14#8, 0x55#8] = .rejected (.noSuchRegister 4) ∧
    decode [0x42#8] = .rejected (.unknownFunction 2#4) ∧
    decode [0x50#8] = .rejected (.reservedOpcode 0x5#4) ∧
    decode [0x64#8] = .rejected (.noSuchRegister 4) ∧
    decode [0xEF#8] = .rejected (.unpopulatedOpcode 0xE#4) ∧
    decode [0x10#8] = .rejected .noImmediate := by decide

/-- With eight registers row T28's bytes are moves. -/
theorem test_decode_eight_registers :
    decodeFirst 8 0x74#8 = .accepted (.whole (.movout .p0 .r4)) ∧
    decodeFirst 8 0x7F#8 = .accepted (.whole (.movout .p1 .r7)) := by decide

theorem test_tableWord :
    decodeTableWord 16 0x5510 = some (.ldi .r0 0x55#8) ∧
    decodeTableWord 8 0x5510 = some (.ldi .r0 0x00#8) ∧ decodeTableWord 8 0x50 = none := by decide

theorem test_withFetchWord_runs :
    nextIs (step (State.reset.withFetchWord 16 0x5510))
      (fun t => t.reg 0 == 0x55#8 && t.pc == 0x0002#16) = true := by decide

/-! ### One step of each instruction -/

/-- Row T14b. -/
theorem test_nop :
    nextIs (step (start 0x11#8 0x22#8 0x33#8 0x44#8 0x0000#16 [(0, 0x0F#8)]))
      (fun t => xs t == [0x11#8, 0x22#8, 0x33#8, 0x44#8] && t.pc == 0x0001#16 && t.ir == 0x0F#8 &&
        t.status == .running) = true := by decide

/-- Row T4. -/
theorem test_nop_last_address :
    nextIs (step (start 0x00#8 0x00#8 0x00#8 0x00#8 0xFFFE#16 []))
      (fun t => t.pc == 0xFFFF#16 && t.ir == 0x00#8 && t.status == .running) = true := by decide

/-- Row T32. -/
theorem test_ldi :
    nextIs (step (start 0x00#8 0x00#8 0x00#8 0x00#8 0x0000#16 [(0, 0x10#8), (1, 0x55#8)]))
      (fun t => xs t == [0x55#8, 0x00#8, 0x00#8, 0x00#8] && t.pc == 0x0002#16 && t.ir == 0x55#8 &&
        t.bus.map Transaction.memAddr == [0x0001#16, 0x0000#16]) = true := by decide

/-- Row T10. -/
theorem test_ldi_overflow :
    nextIs (step (start 0x00#8 0x00#8 0x00#8 0x00#8 0xFFFE#16 [(65534, 0x10#8), (65535, 0x77#8)]))
      (fun t => t.reg 0 == 0x00#8 && t.pc == 0xFFFF#16 && t.ir == 0x77#8 &&
        t.status == .faulted .pcOverflow) = true := by decide

/-- Row T35: the destination is also the high address register. -/
theorem test_ldx :
    nextIs (step (start 0x00#8 0x00#8 0x02#8 0x05#8 0x0000#16 [(0, 0x22#8), (0x25, 0x40#8)]))
      (fun t => xs t == [0x00#8, 0x00#8, 0x40#8, 0x05#8] && t.indAddr == 0x0405#16 &&
        t.pc == 0x0001#16) = true := by decide

/-- Row T45. -/
theorem test_ldx_corruption :
    nextIs (step { start 0x77#8 0x00#8 0x00#8 0x00#8 0x0000#16 [(0, 0x20#8)] with
        readAnswers := [.ok, .corruption] })
      (fun t => t.reg 0 == 0x77#8 && t.pc == 0x0001#16 && t.ir == 0x20#8 &&
        t.status == .faulted .memCorruption) = true := by decide

/-- Row T39: the store goes to 0x0FFF, the highest address it can reach. -/
theorem test_stx :
    nextIs (step (start 0x00#8 0x00#8 0xFF#8 0xFF#8 0x0000#16 [(0, 0x32#8)]))
      (fun t => t.mem == [(0, 0x32#8), (0x0FFF, 0xFF#8)] && t.pc == 0x0001#16) = true := by decide

/-- Row T40: storing zero is an ordinary write. -/
theorem test_stx_zero :
    nextIs (step (start 0x00#8 0x00#8 0x01#8 0x00#8 0x0000#16 [(0, 0x31#8), (0x10, 0x66#8)]))
      (fun t => Memory.read t.mem 0x0010#16 == 0x00#8 && t.mem == [(0, 0x31#8)]) = true := by decide

/-- Row T50. -/
theorem test_add :
    nextIs (step (start 0xFF#8 0x01#8 0x33#8 0x44#8 0x0000#16 [(0, 0x40#8)]))
      (fun t => xs t == [0x00#8, 0x01#8, 0x33#8, 0x44#8] && t.flags == zc && t.pc == 0x0001#16) =
    true := by decide

/-- Row T51: ADD ignores the incoming C. -/
theorem test_add_ignores_carry :
    nextIs (step { start 0x00#8 0x00#8 0x00#8 0x00#8 0x0000#16 [(0, 0x40#8)] with
        flags := ⟨false, false, true, false⟩ })
      (fun t => t.reg 0 == 0x00#8 && t.flags == ⟨true, false, false, false⟩) = true := by decide

/-- Row T52: ADC uses the incoming C. -/
theorem test_adc :
    nextIs (step { start 0x00#8 0x00#8 0x00#8 0x00#8 0x0000#16 [(0, 0x41#8)] with
        flags := ⟨false, false, true, false⟩ })
      (fun t => t.reg 0 == 0x01#8 && t.flags == ⟨false, false, false, false⟩) = true := by decide

/-- Rows V8, V11, V13, V17: the corners of V. -/
theorem test_alu_overflow :
    aluFlags 0x7F#8 0x00#8 true = ⟨false, true, false, true⟩ ∧
    aluFlags 0x80#8 0xFF#8 false = ⟨false, false, true, true⟩ ∧
    aluFlags 0x80#8 0x80#8 false = ⟨true, false, true, true⟩ ∧
    aluFlags 0x7F#8 0x80#8 false = ⟨false, true, false, false⟩ := by decide

/-- Row M8. -/
theorem test_movin :
    nextIs (step { start 0x11#8 0x22#8 0x33#8 0x44#8 0x0000#16 [(0, 0x6B#8)] with flags := zc })
      (fun t => xs t == [0x11#8, 0x44#8, 0x33#8, 0x44#8] && t.flags == zc && t.pc == 0x0001#16) =
    true := by decide

/-- Row M15. -/
theorem test_movout :
    nextIs (step { start 0x11#8 0x22#8 0x33#8 0x44#8 0x0000#16 [(0, 0x7A#8)] with flags := zc })
      (fun t => xs t == [0x11#8, 0x22#8, 0x22#8, 0x44#8] && t.flags == zc && t.pc == 0x0001#16) =
    true := by decide

/-- Row T13. -/
theorem test_halt :
    nextIs (step { start 0x11#8 0x22#8 0x33#8 0x44#8 0x0000#16 [(0, 0xFF#8)] with flags := zc })
      (fun t => xs t == [0x11#8, 0x22#8, 0x33#8, 0x44#8] && t.flags == zc && t.pc == 0x0001#16 &&
        t.status == .halted) = true := by decide

/-- Row T8: at the last address HALT is fetched and not executed. -/
theorem test_halt_at_top :
    nextIs (step (start 0x00#8 0x00#8 0x00#8 0x00#8 0xFFFF#16 [(65535, 0xF0#8)]))
      (fun t => t.ir == 0xF0#8 && t.pc == 0xFFFF#16 && t.status == .faulted .pcOverflow) =
    true := by decide

/-- Row T31: an illegal LDI does not read its immediate. -/
theorem test_illegal_ldi :
    nextIs (step (start 0x00#8 0x00#8 0x00#8 0x00#8 0x0000#16 [(0, 0x14#8), (1, 0x55#8)]))
      (fun t => t.ir == 0x14#8 && t.pc == 0x0001#16 && t.bus.length == 1 &&
        t.faultInfo == some (.decodeError 0x14#8 0x0000#16)) = true := by decide

/-- The source's example S8, three steps: the run is a safe one. -/
theorem test_example_halts :
    HaltsWithin 3 (start 0x00#8 0x00#8 0x00#8 0x00#8 0x0000#16
      [(1, 0x10#8), (2, 0x55#8), (3, 0xF0#8)]) := ⟨_, rfl, rfl⟩

/-! ### The outside -/

/-- Rows A3, A11 and A13. -/
theorem test_indirect :
    indirect 0x12#8 0x34#8 = 0x0134#16 ∧ indirect 0xAA#8 0x54#8 = 0x0AF4#16 ∧
    indirect 0x0F#8 0xF0#8 = 0x00F0#16 := by decide

/-- Rows K8 and K9. -/
theorem test_pack : pack ⟨true, false, true, true⟩ = 0xB0#8 ∧ unpack 0xAF#8 = zc := by decide

/-- The bytes of program P1 (the source's example S8), with a comment and an empty line. -/
theorem test_loadText :
    loadText (['0', '0', ' ', '1', '0', ' ', '#', '1', '\n', '\n'] ++ ['5', '5', ' ', 'F', '0'])
        State.reset =
      .ready { State.reset with mem := [(1, 0x10#8), (2, 0x55#8), (3, 0xF0#8)] } := by decide

/-- A bad token is a load error, and so is a file that cannot be read; a write that the memory does
not accept ends the load at its cell (60_exceptions.md R166, 20_memory.md R57). -/
theorem test_load_fails :
    loadFile (some ['0', '0', '\n', '5', 'G']) State.reset = .failed .malformed ∧
    loadFile none State.reset = .failed .inaccessible ∧
    loadBytes [0x00#8, 0x10#8] { State.reset with writeAnswers := [.ok, .unavailable] } =
      .failed (.memUnavailable 0x0001#16) := by decide

/-- The signals of a read of 0x0025, before the memory answers and after it answered 0x9C, and of a
write that it reports as unavailable (00_scope.md R18). -/
theorem test_signals :
    (Current.waiting (.read .data 0x0025#16)).memDone = false ∧
    (Current.waiting (.read .data 0x0025#16)).memErr = none ∧
    (Current.waiting (.read .data 0x0025#16)).request.memRe = true ∧
    (Current.waiting (.read .data 0x0025#16)).request.memAddr = 0x0025#16 ∧
    (Current.answered (.read .data 0x0025#16 (.byte 0x9C#8))).memDone = true ∧
    (Current.answered (.read .data 0x0025#16 (.byte 0x9C#8))).memRdata = some 0x9C#8 ∧
    (Current.answered (.write 0x0025#16 0xAB#8 .unavailable)).request.memWdata = some 0xAB#8 ∧
    (Current.answered (.write 0x0025#16 0xAB#8 .unavailable)).request.memWe = true ∧
    (Current.answered (.write 0x0025#16 0xAB#8 .unavailable)).memErr = some 2#2 := by decide

/-- `ram:002A` holding `3G` reads as corruption, absent as zero (20_memory.md R70, R73, R74). -/
theorem test_store :
    Store.read true 0x002A#16 [(Store.key 0x002A#16, ['3', 'G'])] = .corruption ∧
    Store.read true 0x002A#16 [(Store.key 0x002A#16, ['3', 'F'])] = .byte 0x3F#8 ∧
    Store.read true 0x002A#16 [] = .byte 0x00#8 := by decide

/-! ### Witnesses -/

theorem readsOk_nil (n : Nat) {s : State} (h : s.readAnswers = []) : s.ReadsOk n := by
  simp [State.ReadsOk, h]

theorem writesOk_nil (n : Nat) {s : State} (h : s.writeAnswers = []) : s.WritesOk n := by
  simp [State.WritesOk, h]

/-- A running state whose cell at `p` is `b`, `p` not the last address, and whose memory answers. -/
theorem canFetch_start (n : Nat) (x0 x1 x2 x3 : Byte) {p : Addr} (cells : List Host.Cell)
    (hp : p ≠ 0xFFFF#16) : (start x0 x1 x2 x3 p cells).CanFetch n :=
  ⟨rfl, hp, readsOk_nil n rfl⟩

/-- A state with the byte `b` at `p` and the high and low address registers 0xFF. -/
def byteAt (b : Byte) (p : Addr) : State :=
  start 0x12#8 0x34#8 0xFF#8 0xFF#8 p [(p.toNat, b)]

theorem canFetch_byteAt (n : Nat) (b : Byte) {p : Addr} (hp : p ≠ 0xFFFF#16) :
    (byteAt b p).CanFetch n := canFetch_start n _ _ _ _ _ hp

theorem witness_DecodeOfEncodeIsTheInstr :
    (Instr.ldi .r3 0xFF#8).wf = true ∧ (Instr.movout .p1 .r3).wf = true := by decide

theorem witness_EncodeOfDecodeIsTheBytes :
    decode [0x13#8, 0xFF#8, 0x50#8] = .accepted (.ldi .r3 0xFF#8, [0x50#8]) := by decide

theorem witness_OpcodeMapIsComplete :
    4 ∈ [4, 8] ∧ 8 ∈ [4, 8] ∧ Reg.number .r3 < 4 ∧ Reg.number .r7 < 8 ∧
    (0x42 ≤ (0x42#8).toNat ∧ (0x5F#8).toNat ≤ 0x5F) ∧
    (0x80 ≤ (0x80#8).toNat ∧ (0xEF#8).toNat ≤ 0xEF) := by decide

theorem witness_IllegalBytesAreThoseOfTheFormula : 4 ∈ [4, 8] ∧ 8 ∈ [4, 8] := by decide

theorem witness_ResetLeavesTheStatedValues :
    ∃ t u, tick true (byteAt 0xF0#8 0xFFFF#16) = .next t ∧ step t = .next u := ⟨_, _, rfl, rfl⟩

theorem witness_EveryStepKeepsInv :
    (byteAt 0x30#8 0x0000#16).Inv ∧ ∃ t, step (byteAt 0x30#8 0x0000#16) = .next t :=
  ⟨⟨rfl, rfl⟩, _, rfl⟩

theorem witness_EveryStepKeepsFetchOrder :
    State.reset.FetchedInOrder ∧ ∃ t, step State.reset = .next t := ⟨.inl rfl, _, rfl⟩

theorem witness_IncrementAtTheTopOverflows :
    (0xFFFE#16 ≠ 0xFFFF#16) ∧
    ((byteAt 0xF0#8 0xFFFF#16).status = .running ∧ (byteAt 0xF0#8 0xFFFF#16).pc = 0xFFFF#16 ∧
      (byteAt 0xF0#8 0xFFFF#16).ReadsOk 1) ∧
    ((byteAt 0x13#8 0xFFFE#16).CanFetch 2 ∧ (byteAt 0x13#8 0xFFFE#16).pc = 0xFFFE#16 ∧
      (byteAt 0x13#8 0xFFFE#16).nextByte = BitVec.ofNat 8 (0x10 + (3 : Fin Config.nreg).val)) :=
  ⟨by decide, ⟨rfl, rfl, readsOk_nil 1 rfl⟩, canFetch_byteAt 2 _ (by decide), rfl, rfl⟩

theorem witness_FetchLatchesThenIncrements :
    ((byteAt 0x00#8 0xFFFE#16).ReadsOk 1 ∧ (byteAt 0x00#8 0xFFFE#16).pc ≠ 0xFFFF#16) ∧
    ((byteAt 0x00#8 0xFFFF#16).ReadsOk 1 ∧ (byteAt 0x00#8 0xFFFF#16).pc = 0xFFFF#16) ∧
    { State.reset with readAnswers := [.corruption] }.readAnswers = .corruption :: [] ∧
    { State.reset with readAnswers := [.unavailable] }.readAnswers = .unavailable :: [] :=
  ⟨⟨readsOk_nil 1 rfl, by decide⟩, ⟨readsOk_nil 1 rfl, rfl⟩, rfl, rfl⟩

theorem witness_StepRunsTheDecodedInstr :
    decode [(byteAt 0x11#8 0xFFFE#16).nextByte, Memory.read (byteAt 0x11#8 0xFFFE#16).mem 0xFFFF#16]
        = .accepted (.ldi .r1 0x00#8, []) ∧
      (byteAt 0x11#8 0xFFFE#16).CanFetch (Instr.ldi .r1 0x00#8).length :=
  ⟨by decide, canFetch_byteAt 2 _ (by decide)⟩

theorem witness_StepIssuesOneOrTwoTransactions :
    (byteAt 0x33#8 0x0000#16).status = .running ∧
      ∃ t, step (byteAt 0x33#8 0x0000#16) = .next t := ⟨rfl, _, rfl⟩

theorem witness_IllegalByteRaisesDecodeError :
    (byteAt 0x14#8 0xFFFE#16).CanFetch 1 ∧
      illegal Config.nreg (byteAt 0x14#8 0xFFFE#16).nextByte = true :=
  ⟨canFetch_byteAt 1 _ (by decide), by decide⟩

/-- A halted state and a faulted one. -/
theorem witness_StoppedCoreDoesNothing :
    { State.reset with status := .halted }.status ≠ .running ∧
    { State.reset with status := .faulted .decodeError }.status ≠ .running := by decide

theorem witness_OnlyHaltHaltsAndOnlyResetResumes :
    (∃ t, step (byteAt 0xFF#8 0xFFFE#16) = .next t ∧ t.status = .halted ∧
      (byteAt 0xFF#8 0xFFFE#16).status ≠ .halted) ∧
    (∃ t, step { State.reset with status := .halted } = .next t) ∧
    { State.reset with status := .faulted .pcOverflow }.status = .faulted .pcOverflow ∧
    ∃ t, tick true { State.reset with status := .halted } = .next t :=
  ⟨⟨_, rfl, rfl, by decide⟩, ⟨_, rfl⟩, rfl, _, rfl⟩

theorem witness_NopOnlyFetches :
    (byteAt 0x0F#8 0xFFFE#16).CanFetch 1 ∧
      (byteAt 0x0F#8 0xFFFE#16).nextByte = 0x0#4 ++ 0xF#4 :=
  ⟨canFetch_byteAt 1 _ (by decide), by decide⟩

theorem witness_HaltStopsTheCore :
    (byteAt 0xFF#8 0xFFFE#16).CanFetch 1 ∧
      (byteAt 0xFF#8 0xFFFE#16).nextByte = 0xF#4 ++ 0xF#4 :=
  ⟨canFetch_byteAt 1 _ (by decide), by decide⟩

/-- The five clauses about a step: at 0xFFFD, at 0xFFFE, and the two failing reads. -/
theorem witness_LdiLoadsTheImmediate :
    (Reg.number .r3 = (3 : Fin Config.nreg).val ∧ (byteAt 0x13#8 0xFFFE#16).pc ≠ 0xFFFF#16 ∧
      (byteAt 0x13#8 0xFFFF#16).pc = 0xFFFF#16) ∧
    (∀ p, (byteAt 0x13#8 p).nextByte = BitVec.ofNat 8 (0x10 + (3 : Fin Config.nreg).val)) ∧
    ((byteAt 0x13#8 0xFFFD#16).CanFetch 2 ∧ (byteAt 0x13#8 0xFFFD#16).pc ≠ 0xFFFE#16) ∧
    ((byteAt 0x13#8 0xFFFE#16).CanFetch 2 ∧ (byteAt 0x13#8 0xFFFE#16).pc = 0xFFFE#16) ∧
    { byteAt 0x13#8 0xFFFE#16 with readAnswers := [.ok, .corruption] }.CanFetch 1 ∧
    { byteAt 0x13#8 0xFFFE#16 with readAnswers := [.ok, .unavailable] }.CanFetch 1 :=
  ⟨⟨rfl, by decide, rfl⟩, fun p => by simp [byteAt, start, State.nextByte, Memory.read, Memory.get],
    ⟨canFetch_byteAt 2 _ (by decide), by decide⟩, ⟨canFetch_byteAt 2 _ (by decide), rfl⟩,
    ⟨rfl, by decide, by simp [State.ReadsOk]⟩, ⟨rfl, by decide, by simp [State.ReadsOk]⟩⟩

theorem witness_LdxLoadsFromTheIndirectAddress :
    (Reg.number .r3 = (3 : Fin Config.nreg).val ∧ (byteAt 0x23#8 0xFFFE#16).ReadsOk 1) ∧
    (byteAt 0x23#8 0xFFFE#16).nextByte = BitVec.ofNat 8 (0x20 + (3 : Fin Config.nreg).val) ∧
    (byteAt 0x23#8 0xFFFE#16).CanFetch 2 ∧
    { byteAt 0x23#8 0xFFFE#16 with readAnswers := [.ok, .corruption] }.CanFetch 1 ∧
    { byteAt 0x23#8 0xFFFE#16 with readAnswers := [.ok, .unavailable] }.CanFetch 1 :=
  ⟨⟨rfl, readsOk_nil 1 rfl⟩, by decide, canFetch_byteAt 2 _ (by decide),
    ⟨rfl, by decide, by simp [State.ReadsOk]⟩, ⟨rfl, by decide, by simp [State.ReadsOk]⟩⟩

theorem witness_StxStoresAtTheIndirectAddress :
    (Reg.number .r3 = (3 : Fin Config.nreg).val ∧ (byteAt 0x33#8 0xFFFE#16).WritesOk 1) ∧
    (byteAt 0x33#8 0xFFFE#16).CanFetch 1 ∧
    (byteAt 0x33#8 0xFFFE#16).nextByte = BitVec.ofNat 8 (0x30 + (3 : Fin Config.nreg).val) ∧
    { byteAt 0x33#8 0xFFFE#16 with writeAnswers := [.unavailable] }.CanFetch 1 :=
  ⟨⟨rfl, writesOk_nil 1 rfl⟩, canFetch_byteAt 1 _ (by decide), by decide,
    rfl, by decide, readsOk_nil 1 rfl⟩

theorem witness_AddSumsR0AndR1 :
    (byteAt 0x40#8 0xFFFE#16).CanFetch 1 ∧ (byteAt 0x40#8 0xFFFE#16).nextByte = 0x40#8 :=
  ⟨canFetch_byteAt 1 _ (by decide), by decide⟩

theorem witness_AdcSumsR0R1AndCarry :
    (byteAt 0x41#8 0xFFFE#16).CanFetch 1 ∧ (byteAt 0x41#8 0xFFFE#16).nextByte = 0x41#8 :=
  ⟨canFetch_byteAt 1 _ (by decide), by decide⟩

theorem witness_MovinCopiesToAPrimary :
    Reg.number .r3 = (3 : Fin Config.nreg).val ∧
    ((byteAt 0x63#8 0xFFFE#16).CanFetch 1 ∧
      (byteAt 0x63#8 0xFFFE#16).nextByte = BitVec.ofNat 8 (0x60 + (3 : Fin Config.nreg).val)) ∧
    (byteAt 0x6B#8 0xFFFE#16).CanFetch 1 ∧
      (byteAt 0x6B#8 0xFFFE#16).nextByte = BitVec.ofNat 8 (0x68 + (3 : Fin Config.nreg).val) :=
  ⟨rfl, ⟨canFetch_byteAt 1 _ (by decide), by decide⟩, canFetch_byteAt 1 _ (by decide), by decide⟩

theorem witness_MovoutCopiesFromAPrimary :
    Reg.number .r3 = (3 : Fin Config.nreg).val ∧
    ((byteAt 0x73#8 0xFFFE#16).CanFetch 1 ∧
      (byteAt 0x73#8 0xFFFE#16).nextByte = BitVec.ofNat 8 (0x70 + (3 : Fin Config.nreg).val)) ∧
    (byteAt 0x7B#8 0xFFFE#16).CanFetch 1 ∧
      (byteAt 0x7B#8 0xFFFE#16).nextByte = BitVec.ofNat 8 (0x78 + (3 : Fin Config.nreg).val) :=
  ⟨rfl, ⟨canFetch_byteAt 1 _ (by decide), by decide⟩, canFetch_byteAt 1 _ (by decide), by decide⟩

theorem witness_IllFormedInstrRaisesDecodeError : (Instr.stx .r4).wf = false := by decide

theorem witness_AddThenAdcAddsWholeNumbers :
    [(0xFF#8, 0x01#8), (0x7F#8, 0x00#8)] ≠ ([] : List (Byte × Byte)) := by decide

theorem witness_RegisterOnlyInstrFrame :
    ∀ i ∈ [Instr.nop 0xF#4, .add, .adc, .movin .p1 .r3, .movout .p1 .r3, .halt 0xF#4],
      i.wf = true ∧ (∀ d imm, i ≠ .ldi d imm) ∧ (∀ d, i ≠ .ldx d) ∧ (∀ r, i ≠ .stx r) ∧
        ∃ t, exec i State.reset = .next t := by
  simp only [List.forall_mem_cons]
  refine ⟨?_, ?_, ?_, ?_, ?_, ?_, fun _ h => by cases h⟩ <;>
    exact ⟨rfl, by simp, by simp, by simp, _, rfl⟩

theorem witness_LoadInstrFrame :
    ((Instr.ldi .r3 0xFF#8).wf = true ∧ ∃ t, exec (.ldi .r3 0xFF#8) State.reset = .next t) ∧
    (Instr.ldx .r3).wf = true ∧ ∃ t, exec (.ldx .r3) State.reset = .next t :=
  ⟨⟨rfl, _, rfl⟩, rfl, _, rfl⟩

theorem witness_StoreInstrFrame :
    (Instr.stx .r3).wf = true ∧ ∃ t, exec (.stx .r3) State.reset = .next t := ⟨rfl, _, rfl⟩

theorem witness_FlagsAreWrittenByAluOnlyAndReadByAdcOnly :
    (∃ t, step (byteAt 0x40#8 0x0000#16) = .next t) ∧
    (nextIs (step { byteAt 0x40#8 0x0000#16 with flags := zc }) fun t => t.flags != zc) = true ∧
    (nextIs (step { byteAt 0x41#8 0x0000#16 with flags := zc }) fun t => t.flags != zc) = true :=
  ⟨⟨_, rfl⟩, by decide, by decide⟩

theorem witness_IrIsNotObservable :
    (byteAt 0x13#8 0xFFFE#16).status = .running ∧
      ∃ t, step (byteAt 0x13#8 0xFFFE#16) = .next t := ⟨rfl, _, rfl⟩

theorem witness_OnlyStxChangesMemoryAndOnlyBelow4K :
    nextIs (step (byteAt 0x33#8 0x0000#16))
      (fun t => Memory.read t.mem 0x0FFF#16 != Memory.read (byteAt 0x33#8 0x0000#16).mem 0x0FFF#16)
      = true ∧ 0x1000 ≤ (0x1000#16).toNat := by decide

/-- A NOP, an LDI, an illegal byte and a HALT, each as far up as it runs. -/
theorem witness_PcAdvancesByFetchesOnly :
    (nextIs (step (byteAt 0x00#8 0xFFFE#16)) fun t => t.status == .running) = true ∧
    (nextIs (step (byteAt 0x10#8 0xFFFD#16)) fun t => t.status == .running) = true ∧
    (nextIs (step (byteAt 0x50#8 0xFFFE#16)) fun t => t.status == .faulted .decodeError) = true ∧
    (nextIs (step (byteAt 0xF0#8 0xFFFE#16)) fun t => t.status == .halted) = true := by decide

theorem witness_StepWritesAtMostOneRegister :
    (nextIs (step (byteAt 0x13#8 0x0000#16)) fun t => t.reg 3 != 0xFF#8) = true := by decide

/-- One fault of each kind. -/
theorem witness_FaultsArePrecise :
    (nextIs (step (byteAt 0x50#8 0xFFFE#16)) fun t => t.status == .faulted .decodeError) = true ∧
    (nextIs (step (byteAt 0x10#8 0xFFFE#16)) fun t => t.status == .faulted .pcOverflow) = true ∧
    (nextIs (step { byteAt 0x20#8 0xFFFE#16 with readAnswers := [.ok, .corruption] })
      fun t => t.status == .faulted .memCorruption) = true ∧
    (nextIs (step { byteAt 0x30#8 0xFFFE#16 with readAnswers := [.unavailable] })
      fun t => t.status == .faulted .memUnavailable) = true ∧
    (nextIs (step (byteAt 0x50#8 0xFFFF#16)) fun t => t.status == .faulted .pcOverflow) = true := by
  decide

/-- The answers of these states: the fetch completes at 0xFFFE and at 0xFFFF, and fails. -/
theorem witness_FaultsArePrecise_answers :
    (byteAt 0x10#8 0xFFFE#16).ReadsOk 1 ∧ (byteAt 0x50#8 0xFFFF#16).ReadsOk 1 ∧
      ¬ { byteAt 0x30#8 0xFFFE#16 with readAnswers := [.unavailable] }.ReadsOk 1 :=
  ⟨readsOk_nil 1 rfl, readsOk_nil 1 rfl, by simp [State.ReadsOk]⟩

/-- The seven clauses of the order of faults. -/
theorem witness_FirstFaultMetIsRaised :
    State.reset.status = .running ∧
    { byteAt 0x50#8 0xFFFF#16 with readAnswers := [.corruption] }.readAnswers = [.corruption] ∧
    { byteAt 0x50#8 0xFFFF#16 with readAnswers := [.unavailable] }.readAnswers = [.unavailable] ∧
    ((byteAt 0x50#8 0xFFFF#16).ReadsOk 1 ∧ (byteAt 0x50#8 0xFFFF#16).pc = 0xFFFF#16) ∧
    ((byteAt 0x50#8 0xFFFE#16).ReadsOk 1 ∧ (byteAt 0x50#8 0xFFFE#16).pc ≠ 0xFFFF#16 ∧
      illegal Config.nreg (byteAt 0x50#8 0xFFFE#16).nextByte = true) ∧
    ({ byteAt 0x13#8 0xFFFE#16 with readAnswers := [.ok, .corruption] }.readAnswers =
        .ok :: .corruption :: [] ∧
      (byteAt 0x13#8 0xFFFE#16).nextByte = BitVec.ofNat 8 (0x10 + (3 : Fin Config.nreg).val) ∧
      (byteAt 0x23#8 0xFFFE#16).nextByte = BitVec.ofNat 8 (0x20 + (3 : Fin Config.nreg).val)) ∧
    ((byteAt 0x13#8 0xFFFE#16).ReadsOk 2 ∧ (byteAt 0x13#8 0xFFFE#16).pc = 0xFFFE#16) ∧
    { byteAt 0x33#8 0xFFFE#16 with writeAnswers := [.unavailable] }.ReadsOk 1 ∧
      (byteAt 0x33#8 0xFFFE#16).nextByte = BitVec.ofNat 8 (0x30 + (3 : Fin Config.nreg).val) :=
  ⟨rfl, rfl, rfl, ⟨readsOk_nil 1 rfl, rfl⟩, ⟨readsOk_nil 1 rfl, by decide, by decide⟩,
    ⟨rfl, by decide, by decide⟩, ⟨readsOk_nil 2 rfl, rfl⟩, readsOk_nil 1 rfl, by decide⟩

theorem witness_EveryRunEndsWithin65536Steps :
    State.reset.MemoryAnswers ∧
    { State.reset with
      readAnswers := [.ok, .corruption], writeAnswers := [.ok, .unavailable] }.MemoryAnswers := by
  simp [State.MemoryAnswers, State.reset]

theorem witness_MemoryRoundTripAndDefaultZero :
    Memory.wf [(0, 0x01#8), (65535, 0xFF#8)] = true ∧ 0xFFFF#16 ≠ 0x0000#16 ∧
    ∀ w ∈ [(0xFFFE#16, 0xFF#8)], w.1 ≠ 0xFFFF#16 := by
  simp [Memory.wf, Memory.wfFrom, Memory.unlisted]

theorem witness_MemoriesThatReadAlikeAreEqual :
    Memory.wf [(0, 0x01#8)] = true ∧ Memory.wf (Memory.write [] 0x0000#16 0x01#8) = true ∧
    ∀ a, Memory.read [(0, 0x01#8)] a = Memory.read (Memory.write [] 0x0000#16 0x01#8) a :=
  ⟨rfl, rfl, fun _ => rfl⟩

theorem witness_MemReadAnswers :
    State.reset.ReadsOk 1 ∧
    { State.reset with readAnswers := [.corruption] }.readAnswers = .corruption :: [] ∧
    { State.reset with readAnswers := [.unavailable] }.readAnswers = .unavailable :: [] :=
  ⟨readsOk_nil 1 rfl, rfl, rfl⟩

theorem witness_MemWriteAnswers :
    Memory.wf State.reset.mem = true ∧ State.reset.WritesOk 1 ∧
    { State.reset with writeAnswers := [.unavailable] }.writeAnswers = .unavailable :: [] :=
  ⟨rfl, writesOk_nil 1 rfl, rfl⟩

theorem witness_StoreIsSeenByFetchAndLoad :
    Memory.wf (byteAt 0x33#8 0x0FFE#16).mem = true ∧ Reg.number .r3 = (3 : Fin Config.nreg).val ∧
      (byteAt 0x33#8 0x0FFE#16).WritesOk 1 ∧
      ∃ t, exec (.stx .r3) (byteAt 0x33#8 0x0FFE#16) = .next t ∧ t.ReadsOk 1 :=
  ⟨rfl, rfl, writesOk_nil 1 rfl, _, rfl, readsOk_nil 1 rfl⟩

theorem witness_CorruptReadWritesNothing :
    ({ State.reset with readAnswers := [.corruption] }.status = .running ∧
      { State.reset with readAnswers := [.corruption] }.readAnswers = .corruption :: []) ∧
    ({ byteAt 0x13#8 0xFFFE#16 with readAnswers := [.ok, .corruption] }.CanFetch 1 ∧
      (byteAt 0x13#8 0xFFFE#16).nextByte = BitVec.ofNat 8 (0x10 + (3 : Fin Config.nreg).val)) ∧
    Reg.number .r3 = (3 : Fin Config.nreg).val :=
  ⟨⟨rfl, rfl⟩, ⟨⟨rfl, by decide, by simp [State.ReadsOk]⟩, by decide⟩, rfl⟩

theorem witness_UnavailableMemoryWritesNoRegister :
    ({ State.reset with readAnswers := [.unavailable] }.status = .running ∧
      { State.reset with readAnswers := [.unavailable] }.readAnswers = .unavailable :: []) ∧
    ({ byteAt 0x13#8 0xFFFE#16 with readAnswers := [.ok, .unavailable] }.CanFetch 1 ∧
      (byteAt 0x13#8 0xFFFE#16).nextByte = BitVec.ofNat 8 (0x10 + (3 : Fin Config.nreg).val)) ∧
    { State.reset with writeAnswers := [.unavailable] }.writeAnswers = .unavailable :: [] ∧
      Reg.number .r3 = (3 : Fin Config.nreg).val :=
  ⟨⟨rfl, rfl⟩, ⟨⟨rfl, by decide, by simp [State.ReadsOk]⟩, by decide⟩, rfl, rfl⟩

theorem witness_MemoryThatNeverAnswersStopsTheStep :
    { State.reset with readAnswers := [.never] }.readAnswers = .never :: [] ∧
    ({ byteAt 0x13#8 0xFFFE#16 with readAnswers := [.ok, .never] }.pc ≠ 0xFFFF#16 ∧
      (byteAt 0x13#8 0xFFFE#16).nextByte = BitVec.ofNat 8 (0x10 + (3 : Fin Config.nreg).val) ∧
      (byteAt 0x23#8 0xFFFE#16).nextByte = BitVec.ofNat 8 (0x20 + (3 : Fin Config.nreg).val)) ∧
    { byteAt 0x33#8 0xFFFE#16 with writeAnswers := [.never] }.CanFetch 1 ∧
      (byteAt 0x33#8 0xFFFE#16).nextByte = BitVec.ofNat 8 (0x30 + (3 : Fin Config.nreg).val) :=
  ⟨rfl, ⟨by decide, by decide, by decide⟩, ⟨rfl, by decide, readsOk_nil 1 rfl⟩, by decide⟩

theorem witness_HaltedAndFaultOutputs :
    ({ State.reset with status := .halted }.haltedOut = true ∧
      ∃ t, step { State.reset with status := .halted } = .next t) ∧
    { State.reset with status := .faulted .pcOverflow }.faultOut ≠ 0#3 ∧
      ∃ t, step { State.reset with status := .faulted .pcOverflow } = .next t :=
  ⟨⟨rfl, _, rfl⟩, by decide, _, rfl⟩

/-- A failed first read, an LDI at 0xFFFF, an LDI at 0xFFFD with both reads, and one at 0xFFFE whose
immediate read fails. -/
theorem witness_DebugTraceShowsTheFlags :
    (∃ t, step { byteAt 0x13#8 0xFFFF#16 with readAnswers := [.corruption] } = .next t) ∧
    ((byteAt 0x13#8 0xFFFF#16).ReadsOk 1 ∧ (byteAt 0x13#8 0xFFFF#16).pc = 0xFFFF#16 ∧
      ∃ t, step (byteAt 0x13#8 0xFFFF#16) = .next t) ∧
    ((byteAt 0x13#8 0xFFFD#16).ReadsOk 2 ∧ (byteAt 0x13#8 0xFFFD#16).pc ≠ 0xFFFF#16 ∧
      (byteAt 0x13#8 0xFFFD#16).nextByte = BitVec.ofNat 8 (0x10 + (3 : Fin Config.nreg).val) ∧
      ∃ t, step (byteAt 0x13#8 0xFFFD#16) = .next t) ∧
    ∃ t, step { byteAt 0x13#8 0xFFFE#16 with readAnswers := [.ok, .unavailable] } = .next t :=
  ⟨⟨_, rfl⟩, ⟨readsOk_nil 1 rfl, rfl, _, rfl⟩,
    ⟨readsOk_nil 2 rfl, by decide, by decide, _, rfl⟩, _, rfl⟩

theorem witness_BackingStoreRefinesMemory :
    (Memory.wf [] = true ∧ StoreHolds [] []) ∧
    Store.lookup [(Store.key 0xFFFF#16, ['3', 'G'])] (Store.key 0xFFFF#16) = some ['3', 'G'] ∧
    Store.validHex 2 ['3', 'G'] = false ∧ Store.validHex 2 ['3'] = false :=
  ⟨⟨rfl, fun _ => rfl⟩, by decide, by decide, by decide⟩

theorem witness_LoaderPlacesBytesInOrder :
    Memory.wf State.reset.mem = true ∧
    ((List.replicate 65536 0x00#8).length ≤ 65536 ∧ State.reset.WritesOk 65536) ∧
    ({ State.reset with writeAnswers := [.ok, .unavailable] }.WritesOk 1 ∧
      { State.reset with writeAnswers := [.ok, .unavailable] }.writeAnswers[1]? =
        some .unavailable ∧ 1 < [0x00#8, 0x10#8].length) ∧
    ({ State.reset with writeAnswers := [.never] }.WritesOk 0 ∧
      { State.reset with writeAnswers := [.never] }.writeAnswers[0]? = some .never) ∧
    65536 < (List.replicate 65537 0x00#8).length ∧
    [0x01#8].length ≤ (0x0001#16).toNat :=
  ⟨rfl, ⟨by rw [List.length_replicate], writesOk_nil _ rfl⟩,
    ⟨by simp [State.WritesOk], rfl, by decide⟩, ⟨by simp [State.WritesOk], rfl⟩,
    by rw [List.length_replicate]; omega, by decide⟩

theorem witness_LoaderReadsHexLines :
    (['0', 'x'] ≠ [] ∧ ' ' ∉ ['0', 'x'] ∧ '#' ∉ ['0', 'x'] ∧ byteOfHex ['0', 'x'] = none ∧
      byteOfHex ['A', 'B', 'C'] = none) ∧
    (∀ l ∈ [([0x10#8, 0xFF#8], some ['#', ' ', 'x']), ([], none)],
      ∀ comment, l.2 = some comment → '\n' ∉ comment) ∧
    ((∀ l ∈ [[], ['0', '0']] ++ [['z']], '\n' ∉ l) ∧
      '\n' ∉ ['1', '0', ' '] ++ ['5'] ++ ['#', '0', '0'] ∧ '#' ∉ ['1', '0', ' '] ++ ['5'] ∧
      ['1', '0', ' '].getLast? = some ' ' ∧ ['#', '0', '0'].head? = some '#' ∧
      byteOfHex ['5'] = none) := by
  refine ⟨by decide, ?_, by decide⟩
  simp

end Sys2Proof.Tests
end

section
/-!
The register writes of a step: which instruction stands at `pc`, what each case of `StepCase` leaves
in the registers, and the obligation of spec 00_scope.md R15 and 10_state.md R23 from them.
-/

namespace Sys2Proof.Machine

/-- `j` is the destination of the instruction at `pc` (R23). -/
def State.DestAtPc (s : State) (j : Fin Config.nreg) : Prop :=
  ∃ i rest, decode [s.nextByte, Memory.read s.mem (s.pc + 1#16)] = .accepted (i, rest) ∧
    destNumber i = some j.val

/-- The field `p` names the register the move itself uses (R9, R89). -/
theorem primary_val (p : Primary) : (primary p).val = p.reg.number := by cases p <;> rfl

/-- A step past its fetch decodes its first byte and what completes it. -/
theorem State.Reaches.decode_eq {s : State} {f : FirstByte} (h : s.Reaches f) (rest : List Byte) :
    decode (s.nextByte :: rest) = completeInstr f rest := by
  simp only [decode, decodeFor, h.first]

theorem State.Reaches.destAtPc_whole {s : State} {i : Instr} {j : Fin Config.nreg}
    (h : s.Reaches (.whole i)) (hj : destNumber i = some j.val) : s.DestAtPc j :=
  ⟨i, _, h.decode_eq _, hj⟩

theorem State.Reaches.destAtPc_ldi {s : State} {d : Reg} {j : Fin Config.nreg}
    (h : s.Reaches (.ldi d)) (hj : d.number = j.val) : s.DestAtPc j :=
  ⟨.ldi d _, [], h.decode_eq _, congrArg some hj⟩

/-- A step leaves every register alone, or it writes the destination of the instruction at `pc` and
leaves every other. -/
theorem StepCase.regs_kept_or_dest_written {s t : State} (c : StepCase s t) :
    (∀ k, t.reg k = s.reg k) ∨
      ∃ j v, s.DestAtPc j ∧ ∀ k, t.reg k = if k = j then v else s.reg k := by
  cases c with
  | idle | fetchFails | overflow | illegal | nop | halt | ldiFails | ldiOverflow | ldxFails | stx
  | stxFails => exact .inl fun _ => rfl
  | ldi h hj => exact .inr ⟨_, _, h.destAtPc_ldi hj, fun k => State.reg_setReg _ _ k _⟩
  | ldx h hj =>
    exact .inr ⟨_, _, h.destAtPc_whole (congrArg some hj), fun k => State.reg_setReg _ _ k _⟩
  | add h => exact .inr ⟨aluDst, _, h.destAtPc_whole rfl, aluInto_reg _ _⟩
  | adc h => exact .inr ⟨aluDst, _, h.destAtPc_whole rfl, aluInto_reg _ _⟩
  | @movin p _ _ h =>
    exact .inr ⟨_, _, h.destAtPc_whole (congrArg some (primary_val p).symm),
      fun k => State.reg_setReg _ _ k _⟩
  | movout h hj =>
    exact .inr ⟨_, _, h.destAtPc_whole (congrArg some hj), fun k => State.reg_setReg _ _ k _⟩

/-- Settles O40, by the cases of a step: the one register a case may write is the destination of the
instruction at `pc`. -/
theorem stepWritesAtMostOneRegister : Obligations.StepWritesAtMostOneRegister := by
  intro s t h
  rcases (step_eq_next_iff.1 h).regs_kept_or_dest_written with kept | ⟨j, v, dest, written⟩
  · exact ⟨⟨0, fun k _ => kept k⟩, fun k hk => absurd (kept k) hk⟩
  · have others : ∀ k, k ≠ j → t.reg k = s.reg k := fun k hk => by rw [written, if_neg hk]
    refine ⟨⟨j, others⟩, fun k hk => ?_⟩
    have hkj : k = j := of_not_not fun hne => hk (others k hne)
    subst hkj
    exact dest

end Sys2Proof.Machine
end

section
/-!
How many bytes an instruction has, from its first byte: what `pc` advances by (spec 30_encoding.md
R80, R84; 10_state.md R26).
-/

namespace Sys2Proof

/-- The number of bytes of the instruction that a first byte begins (R80, R84). -/
def FirstByte.length : FirstByte → Nat
  | .whole _ => 1
  | .ldi _ => 2

theorem length_decodeFirst_or_illegal : ∀ b : Byte,
    (decodeFirst Config.nreg b).map FirstByte.length =
        .accepted (if opcodeOf b = 0x1#4 then 2 else 1) ∨
      illegal Config.nreg b = true := by decide

/-- Only the opcode of LDI begins two bytes. -/
theorem length_of_decodeFirst {b : Byte} {f : FirstByte}
    (h : decodeFirst Config.nreg b = .accepted f) :
    f.length = if opcodeOf b = 0x1#4 then 2 else 1 := by
  rcases length_decodeFirst_or_illegal b with hl | hi
  · rw [h] at hl
    exact Decoded.accepted.inj hl
  · obtain ⟨e, he⟩ := illegal_iff.1 hi
    rw [h] at he
    cases he

end Sys2Proof
end

section
/-!
How a step ends: it is idle, it runs its instruction to its end, or it faults; with what each ending
makes of the status, the fault record and `pc`. From this, and from what a step does to memory: the
invariant (spec 60_exceptions.md R161, R163), who halts and who resumes (10_state.md R35, R36), and
how `pc` advances (10_state.md R26).
-/

namespace Sys2Proof.Machine

/-- The step from `s` to `t` runs the instruction with the first byte `f` to its end. -/
structure State.CompletesAs (s : State) (f : FirstByte) (t : State) : Prop where
  reaches : s.Reaches f
  pc : t.pc.toNat = s.pc.toNat + f.length
  faultInfo : t.faultInfo = s.faultInfo
  status : t.status = .running ∨ t.status = .halted ∧ ∃ u, f = .whole (.halt u)

/-- The step from `s` to `t` raises a fault with the record `info`. -/
structure State.FaultsWith (s : State) (info : FaultInfo) (t : State) : Prop where
  running : s.status = .running
  status : t.status = .faulted info.kind
  faultInfo : t.faultInfo = some info
  pc : t.pc.toNat = s.pc.toNat ∨ t.pc.toNat = s.pc.toNat + 1
  pc_decodeError : info.kind = .decodeError → t.pc.toNat = s.pc.toNat + 1
  pc_overflow : info.kind = .pcOverflow → t.pc = 0xFFFF#16

theorem toNat_succ {p : Addr} (h : p ≠ 0xFFFF#16) : (p + 1#16).toNat = p.toNat + 1 := by bv_omega

theorem toNat_add_two {p : Addr} (h : p ≠ 0xFFFF#16) (h' : p ≠ 0xFFFE#16) :
    (p + 2#16).toNat = p.toNat + 2 := by bv_omega

/-- A step past its fetch has advanced `pc` by one. -/
theorem State.Reaches.toNat_pc_succ {s : State} {f : FirstByte} (h : s.Reaches f) :
    (s.pc + 1#16).toNat = s.pc.toNat + 1 := toNat_succ h.notTop

/-- A completed instruction of one byte other than HALT. -/
theorem State.Reaches.completes {s t : State} {i : Instr} (h : s.Reaches (.whole i))
    (hpc : t.pc = s.pc + 1#16) (hi : t.faultInfo = s.faultInfo) (hs : t.status = s.status) :
    s.CompletesAs (.whole i) t :=
  ⟨h, by rw [hpc, h.toNat_pc_succ]; rfl, hi, .inl (hs.trans h.running)⟩

/-- A read that fails raises neither `DecodeError` nor `PcOverflow`, so it says nothing of `pc`. -/
theorem ReadFails.faultsWith {kind : ReadKind} {a : Addr} {answer : ReadAnswer} {info : FaultInfo}
    {reply : ReadReply} (hf : ReadFails kind a answer info reply) {s u : State}
    (hr : s.status = .running)
    (hpc : u.pc.toNat = s.pc.toNat ∨ u.pc.toNat = s.pc.toNat + 1) :
    s.FaultsWith info (raise info u) := by
  refine ⟨hr, rfl, rfl, hpc, fun hk => ?_, fun hk => ?_⟩ <;>
    rcases hf.kind_eq with h | h <;> rw [h] at hk <;> cases hk

/-- The three endings of a step. -/
theorem StepCase.idle_or_completes_or_faults {s t : State} (c : StepCase s t) :
    (s.status ≠ .running ∧ t = s) ∨ (∃ f, s.CompletesAs f t) ∨ ∃ info, s.FaultsWith info t := by
  cases c with
  | idle h => exact .inl ⟨h, rfl⟩
  | fetchFails h hf => exact .inr (.inr ⟨_, hf.faultsWith h (.inl rfl)⟩)
  | overflow h ok top =>
    exact .inr (.inr ⟨_, h, rfl, rfl, .inl rfl, fun hk => (by cases hk), fun _ => top⟩)
  | illegal h ok notTop =>
    have hpc := toNat_succ notTop
    exact .inr (.inr ⟨_, h, rfl, rfl, .inr hpc, fun _ => hpc, fun hk => (by cases hk)⟩)
  | nop h | add h | adc h | movin h | movout h | ldx h | stx h =>
    exact .inr (.inl ⟨_, h.completes rfl rfl rfl⟩)
  | halt h => exact .inr (.inl ⟨_, h, h.toNat_pc_succ, rfl, .inr ⟨rfl, _, rfl⟩⟩)
  | ldi h hj ok notLast =>
    exact .inr (.inl ⟨_, h, toNat_add_two h.notTop notLast, rfl, .inl h.running⟩)
  | ldiFails h hf | ldxFails h hf =>
    exact .inr (.inr ⟨_, hf.faultsWith h.running (.inr h.toNat_pc_succ)⟩)
  | ldiOverflow h ok last =>
    exact .inr (.inr ⟨_, h.running, rfl, rfl, .inr h.toNat_pc_succ, fun hk => (by cases hk),
      fun _ => pc_succ_eq_top.2 last⟩)
  | stxFails h =>
    exact .inr (.inr ⟨_, h.running, rfl, rfl, .inr h.toNat_pc_succ, fun hk => (by cases hk),
      fun hk => (by cases hk)⟩)

/-- A step keeps the canonical form of memory: only STX, done or failed, writes a cell. -/
theorem StepCase.mem_wf {s t : State} (c : StepCase s t) (h : Memory.wf s.mem = true) :
    Memory.wf t.mem = true := by
  cases c with
  | stx | stxFails => exact Memory.write_wf _ _ h
  | idle | fetchFails | overflow | illegal | nop | halt | ldi | ldiFails | ldiOverflow | ldx
  | ldxFails | add | adc | movin | movout => exact h

/-- A state that is not faulted has no record. -/
theorem State.recordMatches_of_none {s : State} (h : s.status = .running ∨ s.status = .halted)
    (hi : s.faultInfo = none) : s.RecordMatches := by
  rcases h with h | h <;> simpa only [RecordMatches, h] using hi

theorem State.RecordMatches.faultInfo_of_running {s : State} (h : s.RecordMatches)
    (hr : s.status = .running) : s.faultInfo = none := by
  simpa only [RecordMatches, hr] using h

/-- Raising a fault writes the record of the status it sets. -/
theorem State.FaultsWith.recordMatches {s t : State} {info : FaultInfo}
    (h : s.FaultsWith info t) : t.RecordMatches := by
  simp only [State.RecordMatches, h.status, h.faultInfo, Option.map_some, true_and]
  exact h.pc_overflow

theorem StepCase.recordMatches {s t : State} (c : StepCase s t) (h : s.RecordMatches) :
    t.RecordMatches := by
  rcases c.idle_or_completes_or_faults with ⟨-, rfl⟩ | ⟨f, hc⟩ | ⟨info, hf⟩
  · exact h
  · exact State.recordMatches_of_none (hc.status.imp_right And.left)
      (hc.faultInfo.trans (h.faultInfo_of_running hc.reaches.running))
  · exact hf.recordMatches

/-- Settles O9, by the endings of a step for the record and by its cases for memory. -/
theorem everyStepKeepsInv : Obligations.EveryStepKeepsInv := by
  rintro s t ⟨hm, hr⟩ h
  have c := step_eq_next_iff.1 h
  exact ⟨c.mem_wf hm, c.recordMatches hr⟩

/-- Only a HALT sets the status Halted (R35). -/
theorem StepCase.halt_of_halted {s t : State} (c : StepCase s t) (ht : t.status = .halted)
    (hs : s.status ≠ .halted) : ∃ u, s.Reaches (.whole (.halt u)) := by
  rcases c.idle_or_completes_or_faults with ⟨-, rfl⟩ | ⟨f, hc⟩ | ⟨info, hf⟩
  · exact absurd ht hs
  · rcases hc.status with hr | ⟨-, u, rfl⟩
    · rw [ht] at hr; cases hr
    · exact ⟨u, hc.reaches⟩
  · rw [hf.status] at ht; cases ht

/-- Settles O18: only a HALT ends Halted, and the step of a stopped core is idle. -/
theorem onlyHaltHaltsAndOnlyResetResumes : Obligations.OnlyHaltHaltsAndOnlyResetResumes := by
  refine ⟨fun s t h ht hs => ?_, fun s t h hs => ?_, fun s k hk => ?_, fun s t h => ?_⟩
  · obtain ⟨u, hu⟩ := (step_eq_next_iff.1 h).halt_of_halted ht hs
    exact ⟨hu.running, u, agrees_of_decodeFirst hu.first⟩
  · rw [step_idle hs] at h
    cases h
    exact ⟨rfl, rfl, rfl⟩
  · rw [State.haltedOut, hk]; rfl
  · cases h; rfl

/-- Settles O39, by the endings of a step. -/
theorem pcAdvancesByFetchesOnly : Obligations.PcAdvancesByFetchesOnly := by
  intro s t hs h
  have stays : t.status = .halted → ∃ u, step t = .next u ∧ u.pc = t.pc :=
    fun ht => ⟨t, step_idle (by rw [ht]; decide), rfl⟩
  rcases (step_eq_next_iff.1 h).idle_or_completes_or_faults with ⟨hn, -⟩ | ⟨f, hc⟩ | ⟨info, hf⟩
  · exact absurd hs hn
  · have hl := length_of_decodeFirst hc.reaches.first
    have hpc := hc.pc
    refine ⟨fun _ => by rw [hpc, hl], fun ht => ?_, ?_, stays⟩
    · rcases hc.status with hr | ⟨hr, -⟩ <;> rw [ht] at hr <;> cases hr
    · split at hl <;> omega
  · refine ⟨fun ht => ?_, fun ht => ?_, ?_, stays⟩
    · rw [hf.status] at ht; simp at ht
    · rw [hf.status] at ht
      exact hf.pc_decodeError (Status.faulted.inj ht)
    · have := hf.pc
      omega

/-- Settles O17. -/
theorem stoppedCoreDoesNothing : Obligations.StoppedCoreDoesNothing := fun _ => step_idle

/-- Settles O8. -/
theorem invHoldsAtReset : Obligations.InvHoldsAtReset :=
  ⟨reset_wf, State.recordMatches_of_none (.inl rfl) rfl⟩

/-- The first transaction of a running step is the instruction read at `pc` (R100). -/
theorem StepCase.bus_of_running {s t : State} (c : StepCase s t) (hs : s.status = .running) :
    ∃ (reply : ReadReply) (later : List Transaction),
      t.bus = later ++ .read .instruction s.pc reply :: s.bus := by
  cases c with
  | idle h => exact absurd hs h
  | fetchFails | overflow | illegal | nop | halt | add | adc | movin | movout => exact ⟨_, [], rfl⟩
  | ldi | ldiFails | ldiOverflow | ldx | ldxFails | stx | stxFails => exact ⟨_, [_], rfl⟩

/-- Settles O6: the stated values are those of `State.reset`, and the first fetch after the event of
reset is at its `pc`. -/
theorem resetLeavesTheStatedValues : Obligations.ResetLeavesTheStatedValues := by
  refine ⟨by decide, rfl, rfl, rfl, rfl, rfl, rfl, fun _ => rfl, fun s => ?_⟩
  exact ⟨applyReset s, rfl, rfl, fun u h => (step_eq_next_iff.1 h).bus_of_running rfl⟩

end Sys2Proof.Machine
end

section
/-!
Who writes and who reads the flags (spec 10_state.md R31), and that nothing reads `ir` (R29): one
case analysis of two steps that differ in `ir` and the flags serves both.
-/

namespace Sys2Proof.Machine

/-- `s` with another `ir` and other flags. -/
def State.withIrFlags (b : Byte) (f : Flags) (s : State) : State := { s with ir := b, flags := f }

/-- The fetch reads neither `ir` nor a flag. -/
theorem State.Reaches.withIrFlags {s : State} {g : FirstByte} (h : s.Reaches g) (b : Byte)
    (f : Flags) : (s.withIrFlags b f).Reaches g := ⟨h.running, h.ok, h.notTop, h.first⟩

theorem State.Reaches.nextByte_add {s : State} (h : s.Reaches (.whole .add)) :
    s.nextByte = 0x40#8 := agrees_of_decodeFirst h.first

theorem State.Reaches.nextByte_adc {s : State} (h : s.Reaches (.whole .adc)) :
    s.nextByte = 0x41#8 := agrees_of_decodeFirst h.first

/-- A step from another `ir` and other flags, with the same C where it is an ADC, reaches the same
state but for `ir` and the flags, each of which is kept by both steps or written alike. -/
theorem StepCase.withIrFlags {s t : State} (c : StepCase s t) (b : Byte) (f : Flags)
    (hc : s.nextByte = 0x41#8 → f.c = s.flags.c) :
    ∃ b' f', StepCase (s.withIrFlags b f) (t.withIrFlags b' f') ∧
      (b' = b ∧ t.ir = s.ir ∨ b' = t.ir) ∧ (f' = f ∧ t.flags = s.flags ∨ f' = t.flags) := by
  cases c with
  | idle h => exact ⟨b, f, .idle h, .inl ⟨rfl, rfl⟩, .inl ⟨rfl, rfl⟩⟩
  | fetchFails h hf => exact ⟨b, f, .fetchFails h hf, .inl ⟨rfl, rfl⟩, .inl ⟨rfl, rfl⟩⟩
  | overflow h ok top => exact ⟨_, f, .overflow h ok top, .inr rfl, .inl ⟨rfl, rfl⟩⟩
  | illegal h ok notTop hd => exact ⟨_, f, .illegal h ok notTop hd, .inr rfl, .inl ⟨rfl, rfl⟩⟩
  | nop h => exact ⟨_, f, .nop (h.withIrFlags b f), .inr rfl, .inl ⟨rfl, rfl⟩⟩
  | halt h => exact ⟨_, f, .halt (h.withIrFlags b f), .inr rfl, .inl ⟨rfl, rfl⟩⟩
  | ldi h hj ok notLast =>
    exact ⟨_, f, .ldi (h.withIrFlags b f) hj ok notLast, .inr rfl, .inl ⟨rfl, rfl⟩⟩
  | ldiFails h hf => exact ⟨_, f, .ldiFails (h.withIrFlags b f) hf, .inr rfl, .inl ⟨rfl, rfl⟩⟩
  | ldiOverflow h ok last =>
    exact ⟨_, f, .ldiOverflow (h.withIrFlags b f) ok last, .inr rfl, .inl ⟨rfl, rfl⟩⟩
  | ldx h hj ok => exact ⟨_, f, .ldx (h.withIrFlags b f) hj ok, .inr rfl, .inl ⟨rfl, rfl⟩⟩
  | ldxFails h hf => exact ⟨_, f, .ldxFails (h.withIrFlags b f) hf, .inr rfl, .inl ⟨rfl, rfl⟩⟩
  | stx h hj ok => exact ⟨_, f, .stx (h.withIrFlags b f) hj ok, .inr rfl, .inl ⟨rfl, rfl⟩⟩
  | stxFails h hj hf =>
    exact ⟨_, f, .stxFails (h.withIrFlags b f) hj hf, .inr rfl, .inl ⟨rfl, rfl⟩⟩
  | movin h hj => exact ⟨_, f, .movin (h.withIrFlags b f) hj, .inr rfl, .inl ⟨rfl, rfl⟩⟩
  | movout h hj => exact ⟨_, f, .movout (h.withIrFlags b f) hj, .inr rfl, .inl ⟨rfl, rfl⟩⟩
  | add h => exact ⟨_, _, .add (h.withIrFlags b f), .inr rfl, .inr rfl⟩
  | adc h =>
    have c' := StepCase.adc (h.withIrFlags b f)
    rw [show (s.withIrFlags b f).flags.c = s.flags.c from hc h.nextByte_adc] at c'
    exact ⟨_, _, c', .inr rfl, .inr rfl⟩

/-- Settles O37: with the flags as they were, only `ir` can differ. -/
theorem irIsNotObservable : Obligations.IrIsNotObservable := by
  intro s t b _ h
  obtain ⟨b', f', c, -, hf⟩ := (step_eq_next_iff.1 h).withIrFlags b s.flags fun _ => rfl
  have hf' : f' = t.flags := hf.elim (fun ⟨hf, ht⟩ => hf.trans ht.symm) id
  subst hf'
  exact ⟨_, c.step_eq, rfl⟩

/-- A step keeps the flags, or it is a completed ADD or ADC and writes those of the ALU (R31). -/
theorem StepCase.flags_kept_or_alu {s t : State} (c : StepCase s t) :
    t.flags = s.flags ∨
      (s.Reaches (.whole .add) ∧ t = aluInto false (s.afterFetch 1)) ∨
      (s.Reaches (.whole .adc) ∧ t = aluInto s.flags.c (s.afterFetch 1)) := by
  cases c with
  | add h => exact .inr (.inl ⟨h, rfl⟩)
  | adc h => exact .inr (.inr ⟨h, rfl⟩)
  | idle | fetchFails | overflow | illegal | nop | halt | ldi | ldiFails | ldiOverflow | ldx
  | ldxFails | stx | stxFails | movin | movout => exact .inl rfl

/-- Settles O36: the writers by the cases of a step, the readers by two steps that differ in the
flags. -/
theorem flagsAreWrittenByAluOnlyAndReadByAdcOnly :
    Obligations.FlagsAreWrittenByAluOnlyAndReadByAdcOnly := by
  refine ⟨fun s t h hne => ?_, fun s t f hc h => ?_, fun s => ⟨_, _, rfl, rfl, rfl, rfl⟩⟩
  · rcases (step_eq_next_iff.1 h).flags_kept_or_alu with kept | ⟨hr, rfl⟩ | ⟨hr, rfl⟩
    · exact absurd kept hne
    · exact ⟨hr.running, hr.running, .inl ⟨hr.nextByte_add, rfl⟩⟩
    · exact ⟨hr.running, hr.running, .inr ⟨hr.nextByte_adc, rfl⟩⟩
  · obtain ⟨b', f', c, hb, hf⟩ := (step_eq_next_iff.1 h).withIrFlags s.ir f hc
    have hb' : b' = t.ir := hb.elim (fun ⟨hb, ht⟩ => hb.trans ht.symm) id
    subst hb'
    exact ⟨_, c.step_eq, rfl, hf.imp_left And.left⟩

end Sys2Proof.Machine
end

section
/-!
The frame of the instructions that use registers only (spec 41_control.md, 43_alu.md, 44_move.md).
-/

namespace Sys2Proof.Machine

/-- Writing the destination of an instruction leaves a register that is not the destination. -/
theorem State.reg_setReg_of_not_dest {i : Instr} {j k : Fin Config.nreg}
    (hj : destNumber i = some j.val) (hk : destNumber i ≠ some k.val) (s : State) (v : Byte) :
    (s.setReg j v).reg k = s.reg k := by
  have hne : k ≠ j := fun h => hk (h ▸ hj)
  rw [State.reg_setReg, if_neg hne]

/-- An instruction that is no load and no store touches the registers, the flags and the status
only, and of these what its kind allows (R23, R31, R122). -/
theorem exec_registerOnly_frame {i : Instr} {s t : State} (hwf : i.wf = true)
    (hldi : ∀ d imm, i ≠ .ldi d imm) (hldx : ∀ d, i ≠ .ldx d) (hstx : ∀ r, i ≠ .stx r)
    (h : exec i s = .next t) :
    (∃ regs flags status, t = { s with regs := regs, flags := flags, status := status }) ∧
      (∀ k : Fin Config.nreg, destNumber i ≠ some k.val → t.reg k = s.reg k) ∧
      (i ≠ .add → i ≠ .adc → t.flags = s.flags) ∧ ((∀ u, i ≠ .halt u) → t.status = s.status) := by
  cases i with
  | ldi d imm => exact absurd rfl (hldi d imm)
  | ldx d => exact absurd rfl (hldx d)
  | stx r => exact absurd rfl (hstx r)
  | nop u => cases h; exact ⟨⟨_, _, _, rfl⟩, fun _ _ => rfl, fun _ _ => rfl, fun _ => rfl⟩
  | halt u =>
    cases h; exact ⟨⟨_, _, _, rfl⟩, fun _ _ => rfl, fun _ _ => rfl, fun hu => absurd rfl (hu u)⟩
  | add =>
    cases h
    exact ⟨⟨_, _, _, rfl⟩, fun _ hk => State.reg_setReg_of_not_dest (j := aluDst) rfl hk s _,
      fun ha => absurd rfl ha, fun _ => rfl⟩
  | adc =>
    cases h
    exact ⟨⟨_, _, _, rfl⟩, fun _ hk => State.reg_setReg_of_not_dest (j := aluDst) rfl hk s _,
      fun _ ha => absurd rfl ha, fun _ => rfl⟩
  | movin p r =>
    rw [exec_movin_ok p (j := ⟨r.number, of_decide_eq_true hwf⟩) rfl] at h
    cases h
    exact ⟨⟨_, _, _, rfl⟩,
      fun _ hk => State.reg_setReg_of_not_dest (i := .movin p r)
        (congrArg some (primary_val p).symm) hk s _,
      fun _ _ => rfl, fun _ => rfl⟩
  | movout p d =>
    rw [exec_movout_ok p (j := ⟨d.number, of_decide_eq_true hwf⟩) rfl] at h
    cases h
    exact ⟨⟨_, _, _, rfl⟩, fun _ hk => State.reg_setReg_of_not_dest (i := .movout p d) rfl hk s _,
      fun _ _ => rfl, fun _ => rfl⟩

/-- Settles O33: what is neither a register, a flag nor the status is kept whole. -/
theorem registerOnlyInstrFrame : Obligations.RegisterOnlyInstrFrame := by
  intro i s t hwf hldi hldx hstx h
  obtain ⟨⟨_, _, _, rfl⟩, hreg, hflags, hstatus⟩ := exec_registerOnly_frame hwf hldi hldx hstx h
  exact ⟨hreg, hflags, hstatus, fun _ => rfl, rfl, rfl, rfl, rfl, rfl, rfl, rfl⟩

end Sys2Proof.Machine
end

section
/-! The packed status word (spec 10_state.md R32). -/

namespace Sys2Proof.Machine

@[simp] theorem unpack_pack (f : Flags) : unpack (pack f) = f := by
  obtain ⟨z, n, c, v⟩ := f
  revert z n c v
  decide

/-- Bits 3 to 0 of a packed word are zero. -/
theorem pack_low (f : Flags) : (pack f).extractLsb' 0 4 = 0x0#4 := by
  obtain ⟨z, n, c, v⟩ := f
  revert z n c v
  decide

/-- Packing what was unpacked clears bits 3 to 0. -/
theorem pack_unpack : ∀ b : Byte, pack (unpack b) = (b &&& 0xF0#8) := by decide

/-- Settles O46: the bits of a packed word are what unpacking it reads. -/
theorem statusWordPacksTheFlags : Obligations.StatusWordPacksTheFlags :=
  ⟨fun f =>
    ⟨congrArg Flags.z (unpack_pack f), congrArg Flags.n (unpack_pack f),
      congrArg Flags.c (unpack_pack f), congrArg Flags.v (unpack_pack f), pack_low f,
      unpack_pack f⟩,
    pack_unpack⟩

end Sys2Proof.Machine
end

section
/-!
Runs of writes, and the canonical form over addresses (spec 20_memory.md R50, R55).
-/

namespace Sys2Proof.Machine

/-- Writes to other addresses leave a cell alone. -/
theorem read_writeCells_of_ne {cells : List (Addr × Byte)} {a : Addr}
    (h : ∀ c ∈ cells, c.1 ≠ a) (m : List Host.Cell) :
    Memory.read (writeCells cells m) a = Memory.read m a := by
  induction cells generalizing m with
  | nil => rfl
  | cons c cells ih =>
    obtain ⟨hc, hcells⟩ := List.forall_mem_cons.1 h
    calc Memory.read (writeCells (c :: cells) m) a
        = Memory.read (Memory.write m c.1 c.2) a := ih hcells _
      _ = Memory.read m a := Memory.read_write_of_ne _ hc.symm

/-- Settles O47, by the law of one write and induction on the writes. -/
theorem memoryRoundTripAndDefaultZero : Obligations.MemoryRoundTripAndDefaultZero :=
  ⟨fun _ a v h => ⟨Memory.read_write_self h a v, fun _ hb => Memory.read_write_of_ne v hb⟩,
    fun _ _ h => (read_writeCells_of_ne h []).trans (Memory.read_nil _)⟩

/-- Settles O48: every cell number of a canonical memory is an address. -/
theorem memoriesThatReadAlikeAreEqual : Obligations.MemoriesThatReadAlikeAreEqual := by
  intro m m' h h' he
  refine Memory.eq_of_get_eq h h' fun a ha => ?_
  have hread := he (BitVec.ofNat 16 a)
  rwa [Memory.read, Memory.read, BitVec.toNat_ofNat, Nat.mod_eq_of_lt ha] at hread

end Sys2Proof.Machine
end

section
/-!
The answers of one memory transaction (spec 20_memory.md R53, R54), and what a step does to memory:
only a store writes a cell, it writes below 0x1000 (R51), and what it wrote is read from then on
(R66).
-/

namespace Sys2Proof.Machine

/-- Settles O49. -/
theorem memReadAnswers : Obligations.MemReadAnswers := by
  refine fun kind a s => ⟨fun ok => ?_, fun rest hr => ?_, fun rest hr => ?_⟩
  · rw [memRead_ok kind a (State.headD_of_readsOk ok), List.drop_one]
  · rw [memRead_corruption kind a (by rw [hr]; rfl), hr]; rfl
  · rw [memRead_unavailable kind a (by rw [hr]; rfl), hr]; rfl

/-- Settles O50: done or not, the write is one write of the cell. -/
theorem memWriteAnswers : Obligations.MemWriteAnswers := by
  refine fun a v s hm => ⟨fun ok => ?_, fun rest hw => ?_⟩
  · exact ⟨_, memWrite_ok a v (State.headD_of_writesOk ok), Memory.read_write_self hm a v,
      fun _ hb => Memory.read_write_of_ne _ hb, by rw [List.drop_one]⟩
  · exact ⟨_, memWrite_unavailable a v (by rw [hw]; rfl),
      fun _ hb => Memory.read_write_of_ne _ hb, by rw [hw]; rfl⟩

/-- Settles O51. -/
theorem storeIsSeenByFetchAndLoad : Obligations.StoreIsSeenByFetchAndLoad := by
  intro r j s t u kind hm hr hw ht hu ok
  rw [exec_stx_ok hr (State.headD_of_writesOk hw)] at ht
  cases ht
  have stored : Memory.read u.mem s.indAddr = s.reg j := by
    rw [hu]; exact Memory.read_write_self hm _ _
  rw [memRead_ok kind _ (State.headD_of_readsOk ok), stored]
  exact ⟨_, rfl⟩

/-- The indirect address has 12 bits: 8 of the high register, moved up by 4 (R51, R108). -/
theorem toNat_indirect_lt (h l : Byte) : (indirect h l).toNat < 0x1000 := by
  have high : (h.setWidth 16 <<< 4).toNat < 2 ^ 12 := by
    rw [BitVec.toNat_shiftLeft, BitVec.toNat_setWidth, Nat.shiftLeft_eq]
    omega
  have low : (l.setWidth 16).toNat < 2 ^ 12 := by
    rw [BitVec.toNat_setWidth]
    omega
  rw [indirect, BitVec.toNat_or]
  exact Nat.or_lt_two_pow high low

theorem State.toNat_indAddr_lt (s : State) : s.indAddr.toNat < 0x1000 := toNat_indirect_lt _ _

/-- A step leaves memory alone, or it is an STX and writes the cell at the indirect address, the
stored byte or, if the write failed, a free one. -/
theorem StepCase.mem_kept_or_stored {s t : State} (c : StepCase s t) :
    t.mem = s.mem ∨
      ∃ r v, s.Reaches (.whole (.stx r)) ∧ t.mem = Memory.write s.mem s.indAddr v := by
  cases c with
  | stx h | stxFails h => exact .inr ⟨_, _, h, rfl⟩
  | idle | fetchFails | overflow | illegal | nop | halt | ldi | ldiFails | ldiOverflow | ldx
  | ldxFails | add | adc | movin | movout => exact .inl rfl

/-- Settles O38, by what a step does to memory and the reach of the indirect address. -/
theorem onlyStxChangesMemoryAndOnlyBelow4K :
    Obligations.OnlyStxChangesMemoryAndOnlyBelow4K := by
  intro s t h
  rcases (step_eq_next_iff.1 h).mem_kept_or_stored with kept | ⟨r, v, hr, stored⟩
  · rw [kept]
    exact ⟨fun a ha => absurd rfl ha, fun _ _ => rfl⟩
  · have others : ∀ a, a ≠ s.indAddr → Memory.read t.mem a = Memory.read s.mem a :=
      fun a ha => by rw [stored, Memory.read_write_of_ne v ha]
    obtain ⟨byte, exists_reg⟩ := agrees_of_decodeFirst hr.first
    have below := s.toNat_indAddr_lt
    refine ⟨fun a ha => ?_, fun a ha => others a fun he => ?_⟩
    · have target : a = s.indAddr := of_not_not fun hne => ha (others a hne)
      exact ⟨hr.running, target, target ▸ below, ⟨r.number, exists_reg⟩, byte⟩
    · rw [he] at ha
      omega

end Sys2Proof.Machine
end

section
/-!
A memory that never completes a transaction stops the step there (spec 20_memory.md R68, U11): one
lemma for each place in a step where it can happen.
-/

namespace Sys2Proof.Machine

theorem step_fetchNever {s : State} (h : s.status = .running)
    (never : s.readAnswers.headD .ok = .never) :
    step s = .fault (.memoryNeverAnswers (.read .instruction s.pc)) := by
  simp only [step, h, fetchInstr, fetch, memRead_never _ _ never, Result.bind, Result.andThen]

theorem step_ldiNever {s : State} {d : Reg} (h : s.Reaches (.ldi d))
    (never : s.readAnswers.tail.headD .ok = .never) :
    step s = .fault (.memoryNeverAnswers (.read .immediate (s.pc + 1#16))) := by
  have never' : (s.afterFetch 1).readAnswers.headD .ok = .never := by
    rw [State.afterFetch_one]; exact never
  simp only [step, h.running, fetchInstr_ok h.ok h.notTop, h.first, memRead_never _ _ never',
    Result.bind, Result.andThen]

theorem step_ldxNever {s : State} {d : Reg} {j : Fin Config.nreg}
    (h : s.Reaches (.whole (.ldx d))) (hj : d.number = j.val)
    (never : s.readAnswers.tail.headD .ok = .never) :
    step s = .fault (.memoryNeverAnswers (.read .data s.indAddr)) := by
  have never' : (s.afterFetch 1).readAnswers.headD .ok = .never := by
    rw [State.afterFetch_one]; exact never
  rw [step_whole h]
  simp only [exec, execLdx, withReg_of_number hj, memRead_never _ _ never', Result.andThen]
  rfl

theorem step_stxNever {s : State} {r : Reg} {j : Fin Config.nreg}
    (h : s.Reaches (.whole (.stx r))) (hj : r.number = j.val)
    (never : s.writeAnswers.headD .ok = .never) :
    step s = .fault (.memoryNeverAnswers (.write s.indAddr (s.reg j))) := by
  have never' : (s.afterFetch 1).writeAnswers.headD .ok = .never := never
  rw [step_whole h]
  simp only [exec, execStx, withReg_of_number hj, memWrite_never _ _ never', Result.andThen]
  rfl

/-- Settles O54, by the place in the step where the memory does not answer. -/
theorem memoryThatNeverAnswersStopsTheStep :
    Obligations.MemoryThatNeverAnswersStopsTheStep := by
  refine ⟨fun s hs => ⟨fun rest hr => ?_, fun j rest hr notTop => ⟨fun byte => ?_, fun byte => ?_⟩,
    fun j rest can byte hw => ?_⟩, fun _ => ⟨rfl, rfl⟩⟩
  · exact step_fetchNever hs (by rw [hr]; rfl)
  · have reaches : s.Reaches (.ldi (regOfFin j)) :=
      ⟨hs, by rw [hr]; rfl, notTop, byte ▸ decodeFirst_ldi j⟩
    exact step_ldiNever reaches (by rw [hr]; rfl)
  · have reaches : s.Reaches (.whole (.ldx (regOfFin j))) :=
      ⟨hs, by rw [hr]; rfl, notTop, byte ▸ decodeFirst_ldx j⟩
    exact step_ldxNever reaches (regOfFin_number j) (by rw [hr]; rfl)
  · obtain ⟨-, notTop, ok⟩ := can
    have reaches : s.Reaches (.whole (.stx (regOfFin j))) :=
      ⟨hs, State.headD_of_readsOk ok, notTop, byte ▸ decodeFirst_stx j⟩
    exact step_stxNever reaches (regOfFin_number j) (by rw [hw]; rfl)

end Sys2Proof.Machine
end

section
/-!
The reference backing store (spec 20_memory.md R70 to R75): what its texts are, that different
addresses have different keys, and that a write of the store is a write of the memory it holds.
-/

namespace Sys2Proof

/-- A byte is its two halves (R81). -/
@[simp] theorem opcodeOf_append_operandOf (b : Byte) : opcodeOf b ++ operandOf b = b := by
  rw [opcodeOf, operandOf, BitVec.extractLsb'_append_extractLsb'_eq_extractLsb' (by decide)]
  exact BitVec.extractLsb'_eq_self

/-- An address is its two bytes (R70). -/
theorem highByte_append_lowByte (a : Addr) : a.extractLsb' 8 8 ++ a.extractLsb' 0 8 = a := by
  rw [BitVec.extractLsb'_append_extractLsb'_eq_extractLsb' (by decide)]
  exact BitVec.extractLsb'_eq_self

namespace Machine

@[simp] theorem hexValue_hexDigit : ∀ n : Nibble, hexValue (hexDigit n) = some n := by decide

@[simp] theorem byteOfHex_hexByte (b : Byte) : byteOfHex (hexByte b) = some b := by
  simp [hexByte, byteOfHex]

theorem hexByte_injective : Function.Injective hexByte := fun a b h =>
  Option.some.inj <| by rw [← byteOfHex_hexByte a, h, byteOfHex_hexByte]

namespace Store

/-- The digits of a key are those of the two bytes of the address, so the key gives them back. -/
theorem key_injective : Function.Injective key := by
  intro a b h
  obtain ⟨hfront, hlow⟩ := List.append_inj' h rfl
  have high := hexByte_injective (List.append_cancel_left hfront)
  have low := hexByte_injective hlow
  rw [← highByte_append_lowByte a, high, low, highByte_append_lowByte]

/-- What the encoder writes are digits of the alphabet (R58, R72). -/
theorem encoderCheck_eq_true (a : Addr) (v : Byte) : encoderCheck a v = true := by
  simp [encoderCheck, validHex, key, hexByte]

/-- A text that reads as a byte has exactly two digits. -/
theorem validHex_of_byteOfHex {t : List Char} {b : Byte} (h : byteOfHex t = some b) :
    validHex 2 t = true := by
  unfold byteOfHex at h
  split at h
  · split at h
    · simp [validHex, *]
    · cases h
  · cases h

theorem lookup_set (st : Store) (x y v : List Char) :
    lookup (set st x v) y = if y = x then some v else lookup st y := by
  induction st with
  | nil => simp [set, lookup, eq_comm]
  | cons e st ih =>
    obtain ⟨k, w⟩ := e
    by_cases hk : k = x
    · subst hk
      by_cases hy : y = k <;> simp [set, lookup, hy, eq_comm]
    · by_cases hy : k = y
      · subst hy
        simp [set, lookup, hk]
      · simp [set, lookup, hk, hy, ih]

/-! A read of a store that can be reached, by what stands under the key (R73, R74). -/

theorem read_of_lookup_none {st : Store} {a : Addr} (h : lookup st (key a) = none) :
    read true a st = .byte 0x00#8 := by
  simp [read, h]

theorem read_of_byteOfHex {st : Store} {a : Addr} {t : List Char} {b : Byte}
    (h : lookup st (key a) = some t) (ht : byteOfHex t = some b) : read true a st = .byte b := by
  simp [read, h, ht]

theorem read_of_malformed {st : Store} {a : Addr} {t : List Char}
    (h : lookup st (key a) = some t) (ht : validHex 2 t = false) :
    read true a st = .corruption := by
  have : byteOfHex t = none := Option.eq_none_iff_forall_ne_some.2 fun b hb => by
    rw [validHex_of_byteOfHex hb] at ht; cases ht
  simp [read, h, this]

/-- A write of the store is seen at its own address only. -/
theorem read_set (st : Store) (a b : Addr) (v : Byte) :
    read true b (set st (key a) (hexByte v)) = if b = a then .byte v else read true b st := by
  by_cases hb : b = a
  · subst hb
    rw [if_pos rfl]
    exact read_of_byteOfHex (by rw [lookup_set, if_pos rfl]) (byteOfHex_hexByte v)
  · have hkey : key b ≠ key a := key_injective.ne hb
    simp [read, lookup_set, hkey, hb]

theorem write_up (a : Addr) (v : Byte) (st : Store) :
    write true a v st = .stored (set st (key a) (hexByte v)) := by
  simp [write, encoderCheck_eq_true]

theorem write_down (a : Addr) (v : Byte) (st : Store) : write false a v st = .unavailable := by
  simp [write, encoderCheck_eq_true]

end Store

/-- Settles O57. -/
theorem storeKeysAndValues : Obligations.StoreKeysAndValues :=
  ⟨by decide, by decide, fun _ _ h => Store.key_injective h, byteOfHex_hexByte,
    Store.encoderCheck_eq_true⟩

/-- A write keeps the store holding the memory. -/
theorem StoreHolds.set {st : Store} {m : List Host.Cell} (h : StoreHolds st m)
    (hm : Memory.wf m = true) (a : Addr) (v : Byte) :
    StoreHolds (Store.set st (Store.key a) (hexByte v)) (Memory.write m a v) := by
  intro b
  rw [Store.read_set, Memory.read_write hm, h b]
  split <;> rfl

/-- Settles O58: the empty store holds the empty memory and a write keeps what it holds. -/
theorem backingStoreRefinesMemory : Obligations.BackingStoreRefinesMemory :=
  ⟨fun _ => Store.read_of_lookup_none rfl,
    fun st _ a v hm h => ⟨_, Store.write_up a v st, h.set hm a v⟩,
    fun st a v => ⟨rfl, Store.write_down a v st⟩,
    fun _ _ _ => Store.read_of_malformed⟩

end Machine

end Sys2Proof
end

section
/-!
The encoding in both directions (spec 30_encoding.md R82, R86, R88): the rows of the opcode map of a
machine with any number of registers, the encoder's bytes in the same spelling, and from them the
round trips.
-/

namespace Sys2Proof

@[simp] theorem opcodeOf_append (op operand : Nibble) : opcodeOf (op ++ operand) = op :=
  BitVec.extractLsb'_append_eq_left

@[simp] theorem operandOf_append (op operand : Nibble) : operandOf (op ++ operand) = operand :=
  BitVec.extractLsb'_append_eq_right

/-- The byte in row `op` and column `n` of the opcode map, from its two halves (R81). -/
theorem append_ofNat (op : Nibble) {n : Nat} (h : n < 16) :
    op ++ BitVec.ofNat 4 n = BitVec.ofNat 8 (0x10 * op.toNat + n) := by
  have low : n < 2 ^ 4 := h
  refine BitVec.eq_of_toNat_eq ?_
  rw [BitVec.toNat_append, BitVec.toNat_ofNat, Nat.mod_eq_of_lt low,
    ← Nat.shiftLeft_add_eq_or_of_lt low, Nat.shiftLeft_eq, BitVec.toNat_ofNat]
  omega

theorem Reg.number_lt (r : Reg) : r.number < 8 := by cases r <;> decide

theorem Reg.number_lt_16 (r : Reg) : r.number < 16 := r.number_lt.trans (by decide)

section Rows

/-! The rows of the opcode map (R88). -/

variable {nreg : Nat}

theorem decodeFirst_nopRow (u : Nibble) :
    decodeFirst nreg (0x0#4 ++ u) = .accepted (.whole (.nop u)) := by
  simp [decodeFirst]

theorem decodeFirst_haltRow (u : Nibble) :
    decodeFirst nreg (0xF#4 ++ u) = .accepted (.whole (.halt u)) := by
  simp [decodeFirst]

theorem decodeFirst_ldiRow {n : Nat} (h : n < 16) :
    decodeFirst nreg (BitVec.ofNat 8 (0x10 + n)) = (selectReg nreg n).map .ldi := by
  rw [← show _ = BitVec.ofNat 8 (0x10 + n) from append_ofNat 0x1#4 h]
  simp [decodeFirst, Nat.mod_eq_of_lt h]

theorem decodeFirst_ldxRow {n : Nat} (h : n < 16) :
    decodeFirst nreg (BitVec.ofNat 8 (0x20 + n)) =
      (selectReg nreg n).map fun d => .whole (.ldx d) := by
  rw [← show _ = BitVec.ofNat 8 (0x20 + n) from append_ofNat 0x2#4 h]
  simp [decodeFirst, Nat.mod_eq_of_lt h]

theorem decodeFirst_stxRow {n : Nat} (h : n < 16) :
    decodeFirst nreg (BitVec.ofNat 8 (0x30 + n)) =
      (selectReg nreg n).map fun r => .whole (.stx r) := by
  rw [← show _ = BitVec.ofNat 8 (0x30 + n) from append_ofNat 0x3#4 h]
  simp [decodeFirst, Nat.mod_eq_of_lt h]

/-- The fields of format M read back what stands in the operand (R89). -/
theorem primaryOf_operand (p : Primary) {n : Nat} (h : n < 8) :
    primaryOf (BitVec.ofNat 4 (8 * p.reg.number + n)) = p := by
  cases p <;> interval_cases n <;> rfl

theorem moveRegNumber_operand (p : Primary) {n : Nat} (h : n < 8) :
    moveRegNumber (BitVec.ofNat 4 (8 * p.reg.number + n)) = n := by
  cases p <;> interval_cases n <;> rfl

theorem Primary.operand_lt (p : Primary) {n : Nat} (h : n < 8) : 8 * p.reg.number + n < 16 := by
  cases p <;> simp only [Primary.reg, Reg.number] <;> omega

theorem decodeFirst_movinRow (p : Primary) {n : Nat} (h : n < 8) :
    decodeFirst nreg (BitVec.ofNat 8 (0x60 + 8 * p.reg.number + n)) =
      (selectReg nreg n).map fun r => .whole (.movin p r) := by
  rw [Nat.add_assoc, ← show _ = BitVec.ofNat 8 (0x60 + _) from append_ofNat 0x6#4 (p.operand_lt h)]
  simp [decodeFirst, primaryOf_operand p h, moveRegNumber_operand p h]

theorem decodeFirst_movoutRow (p : Primary) {n : Nat} (h : n < 8) :
    decodeFirst nreg (BitVec.ofNat 8 (0x70 + 8 * p.reg.number + n)) =
      (selectReg nreg n).map fun d => .whole (.movout p d) := by
  rw [Nat.add_assoc, ← show _ = BitVec.ofNat 8 (0x70 + _) from append_ofNat 0x7#4 (p.operand_lt h)]
  simp [decodeFirst, primaryOf_operand p h, moveRegNumber_operand p h]

/-- In a row that selects a register, a register that the machine has is accepted. -/
theorem accepted_of_row {b : Byte} {f : Reg → FirstByte} {r : Reg}
    (row : decodeFirst nreg b = (selectReg nreg r.number).map f) (h : r.number < nreg) :
    decodeFirst nreg b = .accepted (f r) := by
  have number : regOfNumber r.number = some r := by cases r <;> rfl
  simp [row, selectReg, number, h, Decoded.map]

/-- In a row that selects a register, a number that the machine does not have is illegal. -/
theorem illegal_of_row {b : Byte} {f : Reg → FirstByte} {n : Nat}
    (row : decodeFirst nreg b = (selectReg nreg n).map f) (h : nreg ≤ n) :
    illegal nreg b = true := by
  refine illegal_iff.2 ⟨.noSuchRegister n, ?_⟩
  rw [row, selectReg]
  split
  · rw [if_neg (by omega)]; rfl
  · rfl

/-! The encoder writes the bytes of the rows (R82). -/

theorem encode_ldi (d : Reg) (imm : Byte) :
    encode (.ldi d imm) = [BitVec.ofNat 8 (0x10 + d.number), imm] := by cases d <;> rfl

theorem encode_ldx (d : Reg) : encode (.ldx d) = [BitVec.ofNat 8 (0x20 + d.number)] := by
  cases d <;> rfl

theorem encode_stx (r : Reg) : encode (.stx r) = [BitVec.ofNat 8 (0x30 + r.number)] := by
  cases r <;> rfl

theorem encode_movin (p : Primary) (r : Reg) :
    encode (.movin p r) = [BitVec.ofNat 8 (0x60 + 8 * p.reg.number + r.number)] := by
  cases p <;> cases r <;> rfl

theorem encode_movout (p : Primary) (d : Reg) :
    encode (.movout p d) = [BitVec.ofNat 8 (0x70 + 8 * p.reg.number + d.number)] := by
  cases p <;> cases d <;> rfl

/-! Decoding after encoding. -/

theorem decodeFor_whole {b : Byte} {i : Instr} (h : decodeFirst nreg b = .accepted (.whole i))
    (rest : List Byte) : decodeFor nreg (b :: rest) = .accepted (i, rest) := by
  simp only [decodeFor, h, completeInstr]

theorem decodeFor_ldi {b : Byte} {d : Reg} (h : decodeFirst nreg b = .accepted (.ldi d))
    (imm : Byte) (rest : List Byte) :
    decodeFor nreg (b :: imm :: rest) = .accepted (.ldi d imm, rest) := by
  simp only [decodeFor, h, completeInstr]

/-- Decoding the encoding of an instruction gives it back, for any number of registers: its first
byte stands in its row of the opcode map, and an LDI's immediate follows. -/
theorem decodeFor_encode {i : Instr} (h : i.wfFor nreg = true) (rest : List Byte) :
    decodeFor nreg (encode i ++ rest) = .accepted (i, rest) := by
  cases i with
  | nop u => exact decodeFor_whole (decodeFirst_nopRow u) rest
  | halt u => exact decodeFor_whole (decodeFirst_haltRow u) rest
  | add | adc => rfl
  | ldi d imm =>
    rw [encode_ldi]
    exact decodeFor_ldi (accepted_of_row (decodeFirst_ldiRow d.number_lt_16) (of_decide_eq_true h))
      imm rest
  | ldx d =>
    rw [encode_ldx]
    exact decodeFor_whole
      (accepted_of_row (decodeFirst_ldxRow d.number_lt_16) (of_decide_eq_true h)) rest
  | stx r =>
    rw [encode_stx]
    exact decodeFor_whole
      (accepted_of_row (decodeFirst_stxRow r.number_lt_16) (of_decide_eq_true h)) rest
  | movin p r =>
    rw [encode_movin]
    exact decodeFor_whole
      (accepted_of_row (decodeFirst_movinRow p r.number_lt) (of_decide_eq_true h)) rest
  | movout p d =>
    rw [encode_movout]
    exact decodeFor_whole
      (accepted_of_row (decodeFirst_movoutRow p d.number_lt) (of_decide_eq_true h)) rest

end Rows

/-- Settles O1. -/
theorem decodeOfEncodeIsTheInstr : Obligations.DecodeOfEncodeIsTheInstr :=
  fun _ rest h => decodeFor_encode h rest

/-! Encoding after decoding. -/

/-- What the decoder accepts is a whole instruction of one byte, or an LDI and its immediate. -/
theorem decode_eq_accepted {bytes rest : List Byte} {i : Instr}
    (h : decode bytes = .accepted (i, rest)) :
    (∃ b, bytes = b :: rest ∧ decodeFirst Config.nreg b = .accepted (.whole i)) ∨
      ∃ b d imm, bytes = b :: imm :: rest ∧ i = .ldi d imm ∧
        decodeFirst Config.nreg b = .accepted (.ldi d) := by
  rcases bytes with _ | ⟨b, tail⟩
  · cases h
  · simp only [decode, decodeFor] at h
    split at h
    next f first =>
      rcases f with i | d
      · cases h
        exact .inl ⟨b, rfl, first⟩
      · rcases tail with _ | ⟨imm, tail⟩ <;> cases h
        exact .inr ⟨b, d, imm, rfl, rfl, first⟩
    next => cases h

/-- A byte that agrees with a whole instruction is its encoding. -/
theorem FirstByte.encode_of_agrees {b : Byte} {i : Instr} (h : FirstByte.agrees b (.whole i)) :
    i.wf = true ∧ encode i = [b] := by
  cases i with
  | ldi d imm => exact h.elim
  | nop u | halt u | add | adc => cases h; exact ⟨rfl, rfl⟩
  | ldx d => obtain ⟨rfl, has⟩ := h; exact ⟨decide_eq_true has, encode_ldx d⟩
  | stx r => obtain ⟨rfl, has⟩ := h; exact ⟨decide_eq_true has, encode_stx r⟩
  | movin p r => obtain ⟨rfl, has⟩ := h; exact ⟨decide_eq_true has, encode_movin p r⟩
  | movout p d => obtain ⟨rfl, has⟩ := h; exact ⟨decide_eq_true has, encode_movout p d⟩

/-- Settles O2: the first byte taken agrees with what was decoded. -/
theorem encodeOfDecodeIsTheBytes : Obligations.EncodeOfDecodeIsTheBytes := by
  intro bytes rest i h
  rcases decode_eq_accepted h with ⟨b, rfl, first⟩ | ⟨b, d, imm, rfl, rfl, first⟩
  · obtain ⟨wf, enc⟩ := FirstByte.encode_of_agrees (agrees_of_decodeFirst first)
    exact ⟨wf, by rw [enc]; rfl⟩
  · obtain ⟨rfl, has⟩ := agrees_of_decodeFirst first
    exact ⟨decide_eq_true has, by rw [encode_ldi]; rfl⟩

/-- Settles O3: the words written out are the encodings of the instructions. -/
theorem writtenWordsDecode : Obligations.WrittenWordsDecode :=
  ⟨decodeFor_encode (i := .nop 0x0#4) rfl [], decodeFor_encode (i := .ldi .r2 0xF0#8) rfl [],
    decodeFor_encode (i := .ldx .r1) rfl [], decodeFor_encode (i := .stx .r3) rfl [],
    decodeFor_encode (i := .add) rfl [], decodeFor_encode (i := .adc) rfl [],
    decodeFor_encode (i := .movin .p1 .r2) rfl [], decodeFor_encode (i := .movout .p0 .r3) rfl [],
    decodeFor_encode (i := .halt 0x7#4) rfl []⟩

/-- No column of row 0x4 but the first two, and none of row 0x5, is an instruction (R88). -/
theorem illegal_between_adc_and_movin : ∀ nreg ∈ [4, 8], ∀ b : Byte,
    0x42 ≤ b.toNat → b.toNat ≤ 0x5F → illegal nreg b = true := by decide

/-- No byte of the rows 0x8 to 0xE is an instruction (R88). -/
theorem illegal_between_movout_and_halt : ∀ nreg ∈ [4, 8], ∀ b : Byte,
    0x80 ≤ b.toNat → b.toNat ≤ 0xEF → illegal nreg b = true := by decide

/-- Settles O4, row by row. -/
theorem opcodeMapIsComplete : Obligations.OpcodeMapIsComplete := by
  refine ⟨fun nreg hn => ⟨decodeFirst_nopRow, fun r hr => ?_, fun n le lt => ?_, fun n le lt => ?_,
    rfl, rfl, illegal_between_adc_and_movin nreg hn, illegal_between_movout_and_halt nreg hn,
    decodeFirst_haltRow⟩, rfl, rfl, rfl, rfl⟩
  · exact ⟨accepted_of_row (decodeFirst_ldiRow r.number_lt_16) hr,
      accepted_of_row (decodeFirst_ldxRow r.number_lt_16) hr,
      accepted_of_row (decodeFirst_stxRow r.number_lt_16) hr,
      accepted_of_row (decodeFirst_movinRow .p0 r.number_lt) hr,
      accepted_of_row (decodeFirst_movinRow .p1 r.number_lt) hr,
      accepted_of_row (decodeFirst_movoutRow .p0 r.number_lt) hr,
      accepted_of_row (decodeFirst_movoutRow .p1 r.number_lt) hr⟩
  · exact ⟨illegal_of_row (decodeFirst_ldiRow lt) le, illegal_of_row (decodeFirst_ldxRow lt) le,
      illegal_of_row (decodeFirst_stxRow lt) le⟩
  · exact ⟨illegal_of_row (decodeFirst_movinRow .p0 lt) le,
      illegal_of_row (decodeFirst_movinRow .p1 lt) le,
      illegal_of_row (decodeFirst_movoutRow .p0 lt) le,
      illegal_of_row (decodeFirst_movoutRow .p1 lt) le⟩

end Sys2Proof
end

section
/-! Registers beyond those of the machine (spec 10_state.md R22, 30_encoding.md R86). -/

namespace Sys2Proof.Machine

/-- Settles O29: only an instruction that names a register can be ill-formed, and what it does with
the register is `withReg`'s. -/
theorem illFormedInstrRaisesDecodeError : Obligations.IllFormedInstrRaisesDecodeError := by
  intro i s h
  cases i with
  | nop | add | adc | halt => cases h
  | ldi | ldx | stx | movin | movout =>
    simp only [exec, execLdi, execLdx, execStx, execMovin, execMovout,
      withReg_of_not (of_decide_eq_false h)]
    rfl

end Sys2Proof.Machine
end

section
/-!
The text form of a program (spec 30_encoding.md R97, R195): cutting texts at a separator, reading
tokens, lines and whole texts, and the cells that loaded bytes fill.
-/

namespace Sys2Proof.Machine

/-! Cutting at a separator. -/

theorem splitAtChar_of_not_mem {c : Char} {t : List Char} (h : c ∉ t) : splitAtChar c t = [t] := by
  induction t with
  | nil => rfl
  | cons d t ih =>
    obtain ⟨hd, ht⟩ := List.ne_and_not_mem_of_not_mem_cons h
    rw [splitAtChar, if_neg hd.symm, ih ht]

theorem splitAtChar_ne_nil (c : Char) (t : List Char) : splitAtChar c t ≠ [] := by
  cases t with
  | nil => exact List.cons_ne_nil _ _
  | cons d t =>
    rw [splitAtChar]
    split
    · exact List.cons_ne_nil _ _
    · split <;> exact List.cons_ne_nil _ _

/-- A separator ends the pieces before it. -/
theorem splitAtChar_append (c : Char) (t rest : List Char) :
    splitAtChar c (t ++ c :: rest) = splitAtChar c t ++ splitAtChar c rest := by
  induction t with
  | nil => simp [splitAtChar]
  | cons d t ih =>
    rw [List.cons_append, splitAtChar, splitAtChar, ih]
    split
    · rfl
    · obtain ⟨p, ps, hp⟩ := List.exists_cons_of_ne_nil (splitAtChar_ne_nil c t)
      rw [hp]; rfl

/-- A piece without the separator, set off by separators or the ends of the text, is one of the
pieces. -/
theorem mem_splitAtChar {c : Char} {left token right : List Char} (ht : c ∉ token)
    (hl : left = [] ∨ left.getLast? = some c) (hr : right = [] ∨ right.head? = some c) :
    token ∈ splitAtChar c (left ++ token ++ right) := by
  have first : token ∈ splitAtChar c (token ++ right) := by
    rcases hr with rfl | hr
    · simp [splitAtChar_of_not_mem ht]
    · obtain ⟨rest, rfl⟩ := List.head?_eq_some_iff.1 hr
      simp [splitAtChar_append, splitAtChar_of_not_mem ht]
  rcases hl with rfl | hl
  · exact first
  · obtain ⟨front, rfl⟩ := List.getLast?_eq_some_iff.1 hl
    rw [List.append_assoc, List.append_assoc, List.singleton_append, splitAtChar_append]
    exact List.mem_append_right _ first

/-- Lines joined by newlines are cut into these lines again. -/
theorem splitAtChar_textOfLines {lines : List (List Char)} (h : ∀ l ∈ lines, '\n' ∉ l)
    (hne : lines ≠ []) : splitAtChar '\n' (textOfLines lines) = lines := by
  induction lines with
  | nil => exact absurd rfl hne
  | cons l ls ih =>
    obtain ⟨hl, hls⟩ := List.forall_mem_cons.1 h
    cases ls with
    | nil => exact splitAtChar_of_not_mem hl
    | cons l' ls =>
      rw [textOfLines, splitAtChar_append, splitAtChar_of_not_mem hl, ih hls (List.cons_ne_nil _ _)]
      · rfl
      · exact List.cons_ne_nil _ _

/-! Reading tokens. -/

theorem bytesOfTokens_hexByte (b : Byte) (ts : List (List Char)) :
    bytesOfTokens (hexByte b :: ts) = (bytesOfTokens ts).map (b :: ·) := by
  have hne : hexByte b ≠ [] := List.cons_ne_nil _ _
  rw [bytesOfTokens, if_neg hne, byteOfHex_hexByte]
  cases bytesOfTokens ts <;> rfl

/-- A space after the last token adds no token. -/
theorem bytesOfTokens_append_nil (ts : List (List Char)) :
    bytesOfTokens (ts ++ [[]]) = bytesOfTokens ts := by
  induction ts with
  | nil => rfl
  | cons t ts ih => simp only [List.cons_append, bytesOfTokens, ih]

/-- A token that is no hexadecimal pair spoils the tokens around it. -/
theorem bytesOfTokens_eq_none {t : List Char} {ts : List (List Char)} (h : t ∈ ts) (hne : t ≠ [])
    (ht : byteOfHex t = none) : bytesOfTokens ts = none := by
  induction ts with
  | nil => cases h
  | cons u us ih =>
    rcases List.mem_cons.1 h with rfl | h
    · simp [bytesOfTokens, hne, ht]
    · simp [bytesOfTokens, ih h]

/-! Reading a line. -/

/-- No digit is a separator, a comment sign or a newline. -/
theorem hexDigit_not_special : ∀ n : Nibble, hexDigit n ∉ [' ', '#', '\n'] := by decide

theorem not_mem_hexByte {c : Char} (hc : c ∈ [' ', '#', '\n']) (b : Byte) : c ∉ hexByte b := by
  intro h
  rcases List.mem_pair.1 h with rfl | rfl <;> exact hexDigit_not_special _ hc

theorem not_mem_lineOfBytes {c : Char} (hc : c ∈ ['#', '\n']) (bytes : List Byte) :
    c ∉ lineOfBytes bytes := by
  have hex := not_mem_hexByte (List.mem_cons_of_mem ' ' hc)
  have space : c ≠ ' ' := by rintro rfl; revert hc; decide
  induction bytes with
  | nil => exact List.not_mem_nil
  | cons b bs ih =>
    cases bs with
    | nil => exact hex b
    | cons b' bs =>
      rw [lineOfBytes, List.mem_append, List.mem_cons]
      · exact not_or.2 ⟨hex b, not_or.2 ⟨space, ih⟩⟩
      · exact List.cons_ne_nil _ _

/-- The pairs of a line are read as its bytes. -/
theorem bytesOfTokens_lineOfBytes (bytes : List Byte) :
    bytesOfTokens (splitAtChar ' ' (lineOfBytes bytes)) = some bytes := by
  have piece := fun b => splitAtChar_of_not_mem (not_mem_hexByte (c := ' ') (by decide) b)
  induction bytes with
  | nil => rfl
  | cons b bs ih =>
    cases bs with
    | nil => rw [lineOfBytes, piece, bytesOfTokens_hexByte]; rfl
    | cons b' bs =>
      rw [lineOfBytes, splitAtChar_append, piece, List.singleton_append, bytesOfTokens_hexByte, ih]
      · rfl
      · exact List.cons_ne_nil _ _

/-- What stands before a comment sign is cut at the spaces. -/
theorem bytesOfLine_append {front : List Char} (h : '#' ∉ front) (rest : List Char) :
    bytesOfLine (front ++ rest) =
      bytesOfTokens (splitAtChar ' ' (front ++ rest.takeWhile (· != '#'))) := by
  rw [bytesOfLine, List.takeWhile_append_of_pos]
  exact fun c hc => bne_iff_ne.2 (ne_of_mem_of_not_mem hc h)

/-- The end of a line: nothing, or a space and a comment. -/
def commentText (comment : Option (List Char)) : List Char :=
  comment.elim [] fun text => ' ' :: '#' :: text

/-- The pairs of a line are read as its bytes, with or without a comment. -/
theorem bytesOfLine_lineOfBytes (bytes : List Byte) (comment : Option (List Char)) :
    bytesOfLine (lineOfBytes bytes ++ commentText comment) = some bytes := by
  have noSign := not_mem_lineOfBytes (c := '#') (by decide) bytes
  rw [bytesOfLine_append noSign]
  cases comment with
  | none =>
    rw [show (commentText none).takeWhile (· != '#') = [] from rfl, List.append_nil,
      bytesOfTokens_lineOfBytes]
  | some text =>
    have space : (commentText (some text)).takeWhile (· != '#') = [' '] := by simp [commentText]
    rw [space, splitAtChar_append, show splitAtChar ' ' [] = [[]] from rfl,
      bytesOfTokens_append_nil, bytesOfTokens_lineOfBytes]

theorem newline_not_mem_lineOfBytes (bytes : List Byte) {comment : Option (List Char)}
    (h : ∀ text, comment = some text → '\n' ∉ text) :
    '\n' ∉ lineOfBytes bytes ++ commentText comment := by
  have pairs := not_mem_lineOfBytes (c := '\n') (by decide) bytes
  cases comment with
  | none => simpa [commentText] using pairs
  | some text => simpa [commentText, pairs] using h text rfl

/-- A token that is no hexadecimal pair, outside the comment, spoils its line. -/
theorem bytesOfLine_eq_none {left token right : List Char} (noSign : '#' ∉ left ++ token)
    (hl : left = [] ∨ left.getLast? = some ' ')
    (hr : right = [] ∨ right.head? = some ' ' ∨ right.head? = some '#')
    (hne : token ≠ []) (noSpace : ' ' ∉ token) (ht : byteOfHex token = none) :
    bytesOfLine (left ++ token ++ right) = none := by
  have hr' : right.takeWhile (· != '#') = [] ∨
      (right.takeWhile (· != '#')).head? = some ' ' := by
    rcases hr with rfl | hr | hr
    · exact .inl rfl
    · obtain ⟨rest, rfl⟩ := List.head?_eq_some_iff.1 hr
      exact .inr rfl
    · obtain ⟨rest, rfl⟩ := List.head?_eq_some_iff.1 hr
      exact .inl rfl
  rw [bytesOfLine_append noSign]
  exact bytesOfTokens_eq_none (mem_splitAtChar noSpace hl hr') hne ht

/-! Reading a text. -/

theorem bytesOfLines_eq_none {l : List Char} {lines : List (List Char)} (h : l ∈ lines)
    (hl : bytesOfLine l = none) : bytesOfLines lines = none := by
  induction lines with
  | nil => cases h
  | cons k ks ih =>
    rcases List.mem_cons.1 h with rfl | h
    · simp [bytesOfLines, hl]
    · simp [bytesOfLines, ih h]

theorem bytesOfLines_lineOfBytes (lines : List (List Byte × Option (List Char))) :
    bytesOfLines (lines.map fun l => lineOfBytes l.1 ++ commentText l.2) =
      some (lines.flatMap Prod.fst) := by
  induction lines with
  | nil => rfl
  | cons l ls ih => simp [bytesOfLines, bytesOfLine_lineOfBytes, ih]

/-- A text is read line by line; the text of no line is one empty line, which has no byte. -/
theorem bytesOfLines_textOfLines {lines : List (List Char)} (h : ∀ l ∈ lines, '\n' ∉ l) :
    bytesOfLines (splitAtChar '\n' (textOfLines lines)) = bytesOfLines lines := by
  cases lines with
  | nil => rfl
  | cons l ls => rw [splitAtChar_textOfLines h (List.cons_ne_nil _ _)]

theorem loadText_of_bytesOfLines {lines : List (List Char)} {bytes : List Byte}
    (h : ∀ l ∈ lines, '\n' ∉ l) (hb : bytesOfLines lines = some bytes) (s : State) :
    loadText (textOfLines lines) s = loadBytes bytes s := by
  simp only [loadText, bytesOfLines_textOfLines h, hb]

theorem loadText_malformed {lines : List (List Char)} (h : ∀ l ∈ lines, '\n' ∉ l)
    (hb : bytesOfLines lines = none) (s : State) :
    loadText (textOfLines lines) s = .failed .malformed := by
  simp only [loadText, bytesOfLines_textOfLines h, hb]

/-! The cells that loaded bytes fill. -/

theorem addr_of_mem_cellsFrom {bytes : List Byte} {at0 : Nat} {c : Addr × Byte}
    (h : c ∈ cellsFrom at0 bytes) :
    ∃ k, at0 ≤ k ∧ k < at0 + bytes.length ∧ c.1 = BitVec.ofNat 16 k := by
  induction bytes generalizing at0 with
  | nil => cases h
  | cons b bs ih =>
    rcases List.mem_cons.1 h with rfl | h
    · exact ⟨at0, le_rfl, by simp, rfl⟩
    · obtain ⟨k, low, high, hk⟩ := ih h
      exact ⟨k, by omega, by rw [List.length_cons]; omega, hk⟩

/-- Bytes written from `at0` upward leave a cell outside their range alone. -/
theorem read_writeCells_cellsFrom_of_outside {bytes : List Byte} {at0 : Nat} {a : Addr}
    (fits : at0 + bytes.length ≤ 65536) (h : a.toNat < at0 ∨ at0 + bytes.length ≤ a.toNat)
    (m : List Host.Cell) :
    Memory.read (writeCells (cellsFrom at0 bytes) m) a = Memory.read m a := by
  refine read_writeCells_of_ne (fun c hc => ?_) m
  obtain ⟨k, low, high, hk⟩ := addr_of_mem_cellsFrom hc
  rintro rfl
  rw [hk, BitVec.toNat_ofNat] at h
  omega

/-- Bytes written from `at0` upward stand there in order. -/
theorem read_writeCells_cellsFrom {bytes : List Byte} {at0 : Nat} {m : List Host.Cell}
    (hm : Memory.wf m = true) (fits : at0 + bytes.length ≤ 65536) {i : Nat}
    (h : i < bytes.length) :
    Memory.read (writeCells (cellsFrom at0 bytes) m) (BitVec.ofNat 16 (at0 + i)) = bytes[i] := by
  induction bytes generalizing at0 m i with
  | nil => cases h
  | cons b bs ih =>
    rw [List.length_cons] at fits h
    have first_written : writeCells (cellsFrom at0 (b :: bs)) m =
        writeCells (cellsFrom (at0 + 1) bs) (Memory.write m (BitVec.ofNat 16 at0) b) := rfl
    rw [first_written]
    cases i with
    | zero =>
      have above : (BitVec.ofNat 16 at0).toNat < at0 + 1 := by rw [BitVec.toNat_ofNat]; omega
      exact (read_writeCells_cellsFrom_of_outside (by omega) (.inl above) _).trans
        (Memory.read_write_self hm _ _)
    | succ i =>
      rw [show at0 + (i + 1) = at0 + 1 + i by omega]
      exact ih (Memory.write_wf _ _ hm) (by omega) (by omega)

theorem loadBytes_of_writesOk {bytes : List Byte} {s : State} (fits : bytes.length ≤ 65536)
    (ok : s.WritesOk bytes.length) :
    loadBytes bytes s = .ready
      { s with
        writeAnswers := s.writeAnswers.drop bytes.length
        mem := writeCells (cellsFrom 0 bytes) s.mem } := by
  have ok' : s.WritesOk (cellsFrom 0 bytes).length := by rwa [cellsFrom_length]
  rw [loadBytes, if_pos fits, loadCells_of_writesOk ok', cellsFrom_length]

/-- Settles O60: a line by its tokens, a text by its lines, the memory by the cells filled. -/
theorem loaderReadsHexLines : Obligations.LoaderReadsHexLines := by
  refine ⟨fun bytes => ?_, fun bytes comment => bytesOfLine_lineOfBytes bytes (some comment),
    fun token bytes hne noSpace noSign ht => ?_, fun lines s noNewline => ?_,
    fun earlier later left token right s others noNewline noSign hl hr hne noSpace ht => ?_⟩
  · have := bytesOfLine_lineOfBytes bytes none
    rwa [show commentText none = [] from rfl, List.append_nil] at this
  · have noSign' : '#' ∉ lineOfBytes bytes ++ [' '] ++ token := by
      simp [not_mem_lineOfBytes, noSign]
    have := bytesOfLine_eq_none (right := []) noSign' (.inr List.getLast?_concat) (.inl rfl) hne
      noSpace ht
    rwa [List.append_nil, List.append_assoc] at this
  · have lines_closed : ∀ l ∈ lines.map fun l => lineOfBytes l.1 ++ commentText l.2, '\n' ∉ l := by
      refine List.forall_mem_map.2 fun l hl => ?_
      exact newline_not_mem_lineOfBytes l.1 (noNewline l hl)
    have loads := loadText_of_bytesOfLines lines_closed (bytesOfLines_lineOfBytes lines) s
    refine ⟨loads, fun hm fits ok => ⟨_, loads.trans (loadBytes_of_writesOk fits ok), ?_, ?_⟩⟩
    · intro i h
      have := read_writeCells_cellsFrom hm ((Nat.zero_add _).trans_le fits) h
      rwa [Nat.zero_add] at this
    · intro a ha
      exact read_writeCells_cellsFrom_of_outside (by omega) (.inr (by omega)) s.mem
  · have bad : left ++ token ++ right ∈ earlier ++ (left ++ token ++ right) :: later := by simp
    obtain ⟨hearlier, hlater⟩ := List.forall_mem_append.1 others
    exact loadText_malformed
      (List.forall_mem_append.2 ⟨hearlier, List.forall_mem_cons.2 ⟨noNewline, hlater⟩⟩)
      (bytesOfLines_eq_none bad (bytesOfLine_eq_none noSign hl hr hne noSpace ht)) s

end Sys2Proof.Machine
end

section
/-!
The transactions of a step (spec 40_fetch_step.md R110), and the addresses it fetches (R112): the
record of fetches stays the addresses below `pc`.
-/

namespace Sys2Proof.Machine

/-- A fetch below the top adds its address to those below `pc`, and advances `pc` past it. -/
theorem cons_addrsBelow {p : Addr} {trail : List Addr} (h : trail = addrsBelow p.toNat)
    (notTop : p ≠ 0xFFFF#16) : p :: trail = addrsBelow (p + 1#16).toNat := by
  rw [toNat_succ notTop, addrsBelow, h, BitVec.ofNat_toNat, BitVec.setWidth_eq]

/-- A fetch at the top completes the address space. -/
theorem cons_addrsBelow_top {p : Addr} {trail : List Addr} (h : trail = addrsBelow p.toNat)
    (top : p = 0xFFFF#16) : p :: trail = addrsBelow 65536 := by
  subst top; rw [h]; rfl

/-- A read that fails fetches nothing. -/
theorem ReadFails.fetchAddr_eq_none {kind : ReadKind} {a : Addr} {answer : ReadAnswer}
    {info : FaultInfo} {reply : ReadReply} (hf : ReadFails kind a answer info reply) :
    (Transaction.read kind a reply).fetchAddr = none := by
  rcases hf with ⟨-, -, rfl⟩ | ⟨-, -, rfl⟩ <;> cases kind <;> rfl

/-- The trail of fetches after a transaction that is none. -/
theorem State.fetchTrail_of_not_fetch {s t : State} {x : Transaction} (hb : t.bus = x :: s.bus)
    (hx : x.fetchAddr = none) : t.fetchTrail = s.fetchTrail := by
  rw [fetchTrail, hb, List.filterMap_cons_none hx, fetchTrail]

/-- Past its first fetch, a step has the trail of the advanced `pc`. -/
theorem State.Reaches.fetchTrail_afterFetch {s : State} {f : FirstByte} (h : s.Reaches f)
    (ordered : s.fetchTrail = addrsBelow s.pc.toNat) :
    (s.afterFetch 1).fetchTrail = addrsBelow (s.pc + 1#16).toNat :=
  cons_addrsBelow ordered h.notTop

/-- A step from a trail in order leaves one. -/
theorem StepCase.fetchedInOrder {s t : State} (c : StepCase s t)
    (ordered : s.fetchTrail = addrsBelow s.pc.toNat) : t.FetchedInOrder := by
  cases c with
  | idle => exact .inl ordered
  | fetchFails _ hf =>
    exact .inl ((State.fetchTrail_of_not_fetch rfl hf.fetchAddr_eq_none).trans ordered)
  | overflow _ _ top => exact .inr ⟨rfl, top, cons_addrsBelow_top ordered top⟩
  | illegal _ _ notTop => exact .inl (cons_addrsBelow ordered notTop)
  | nop h | halt h | add h | adc h | movin h | movout h =>
    exact .inl (h.fetchTrail_afterFetch ordered)
  | ldx h | ldxFails h | stx h | stxFails h =>
    exact .inl ((State.fetchTrail_of_not_fetch rfl rfl).trans (h.fetchTrail_afterFetch ordered))
  | ldiFails h hf =>
    exact .inl ((State.fetchTrail_of_not_fetch rfl hf.fetchAddr_eq_none).trans
      (h.fetchTrail_afterFetch ordered))
  | ldi h _ _ notLast =>
    have twice := cons_addrsBelow (h.fetchTrail_afterFetch ordered) (mt pc_succ_eq_top.1 notLast)
    rw [BitVec.add_assoc] at twice
    exact .inl twice
  | ldiOverflow h _ last =>
    have top := pc_succ_eq_top.2 last
    exact .inr ⟨rfl, top, cons_addrsBelow_top (h.fetchTrail_afterFetch ordered) top⟩

/-- Settles O11: a running step appends what it fetches to the record, and after a `PcOverflow`
every step is idle. -/
theorem everyStepKeepsFetchOrder : Obligations.EveryStepKeepsFetchOrder := by
  rintro s t (ordered | ⟨faulted, full⟩) h
  · exact (step_eq_next_iff.1 h).fetchedInOrder ordered
  · rw [step_idle (by rw [faulted]; decide)] at h
    cases h
    exact .inr ⟨faulted, full⟩

/-- Settles O10. -/
theorem fetchOrderHoldsAtReset : Obligations.FetchOrderHoldsAtReset := .inl rfl

/-- Settles O15, by the cases of a step. -/
theorem stepIssuesOneOrTwoTransactions : Obligations.StepIssuesOneOrTwoTransactions := by
  intro s t hs h
  cases step_eq_next_iff.1 h with
  | idle hn => exact absurd hs hn
  | fetchFails | overflow | illegal | nop | halt | add | adc | movin | movout =>
    exact ⟨_, .inl rfl⟩
  | ldi hr | ldiFails hr | ldiOverflow hr =>
    obtain ⟨byte, exists_reg⟩ := agrees_of_decodeFirst hr.first
    exact ⟨_, .inr ⟨_, rfl, .inl ⟨⟨⟨_, exists_reg⟩, byte⟩, _, rfl⟩⟩⟩
  | ldx hr | ldxFails hr =>
    obtain ⟨byte, exists_reg⟩ := agrees_of_decodeFirst hr.first
    exact ⟨_, .inr ⟨_, rfl, .inr (.inl ⟨⟨⟨_, exists_reg⟩, byte⟩, _, rfl⟩)⟩⟩
  | stx hr hj | stxFails hr hj =>
    obtain ⟨byte, -⟩ := agrees_of_decodeFirst hr.first
    rw [hj] at byte
    exact ⟨_, .inr ⟨_, rfl, .inr (.inr ⟨_, byte, _, rfl⟩)⟩⟩

end Sys2Proof.Machine
end

section
/-!
The fetch, and what a step does with the bytes fetched (spec 40_fetch_step.md R100, R102, R104,
R105; 60_exceptions.md R163).
-/

namespace Sys2Proof.Machine

/-- A state that can fetch gets past its fetch if its first byte is legal. -/
theorem State.CanFetch.reaches {n : Nat} {s : State} {f : FirstByte} (h : s.CanFetch (n + 1))
    (first : decodeFirst Config.nreg s.nextByte = .accepted f) : s.Reaches f := by
  obtain ⟨running, notTop, ok⟩ := h
  exact ⟨running, State.headD_of_readsOk ok, notTop, first⟩

theorem State.CanFetch.second_read_ok {n : Nat} {s : State} (h : s.CanFetch (n + 2)) :
    s.readAnswers.tail.headD .ok = .ok := by
  obtain ⟨-, -, ok⟩ := h
  exact State.headD_tail_of_readsOk ok

/-- Settles O12: the increment that fails is that of the first fetch at 0xFFFF, and that of the
immediate's at 0xFFFE. -/
theorem incrementAtTheTopOverflows : Obligations.IncrementAtTheTopOverflows := by
  refine ⟨fun w _ => inc_of_ne w, rfl, rfl, fun s running top ok => ?_,
    fun s j can last byte => ?_⟩
  · rw [step_overflow running (State.headD_of_readsOk ok) top, State.nextByte, top, List.drop_one]
    rfl
  · have reaches : s.Reaches (.ldi (regOfFin j)) := can.reaches (byte ▸ decodeFirst_ldi j)
    have overflows := StepCase.ldiOverflow reaches can.second_read_ok last
    rw [overflows.step_eq, State.immByte, State.afterFetch, last]
    rfl

/-- Settles O13, by the answer to the read and the place of `pc`. -/
theorem fetchLatchesThenIncrements : Obligations.FetchLatchesThenIncrements := by
  refine fun kind s => ⟨fun rest readsOk hrest => ?_, fun rest hr => ?_, fun rest hr => ?_⟩
  · have ok := State.headD_of_readsOk readsOk
    rw [hrest, List.drop_one]
    exact ⟨fetch_ok kind ok, fetch_top kind ok⟩
  · rw [fetch, memRead_corruption kind _ (by rw [hr]; rfl), hr]; rfl
  · rw [fetch, memRead_unavailable kind _ (by rw [hr]; rfl), hr]; rfl

/-- A first byte that is a whole instruction is one of a single byte (R80, R84). -/
theorem length_of_decodeFirst_whole {b : Byte} {i : Instr}
    (h : decodeFirst Config.nreg b = .accepted (.whole i)) : i.length = 1 := by
  have agrees := agrees_of_decodeFirst h
  cases i with
  | ldi => exact agrees.elim
  | nop | ldx | stx | add | adc | movin | movout | halt => rfl

/-- Settles O14, for a whole instruction and for an LDI with its immediate. -/
theorem stepRunsTheDecodedInstr : Obligations.StepRunsTheDecodedInstr := by
  intro s i rest hd can
  rcases decode_eq_accepted hd with ⟨b, bytes, first⟩ | ⟨b, d, imm, bytes, rfl, first⟩
  · cases bytes
    rw [length_of_decodeFirst_whole first] at can ⊢
    exact step_whole (can.reaches first)
  · cases bytes
    exact step_ldi (can.reaches first) can.second_read_ok

end Sys2Proof.Machine
end

section
/-! The bits and the reach of the indirect address (spec 40_fetch_step.md R108, R109). -/

namespace Sys2Proof.Machine

/-- A bit of the address: the high register from bit 4 up, or-ed with the low one (R108). -/
theorem getLsbD_indirect (h l : Byte) {i : Nat} (hi : i < 16) :
    (indirect h l).getLsbD i = (!decide (i < 4) && h.getLsbD (i - 4) || l.getLsbD i) := by
  simp [indirect, hi]

/-- Four bits of the address to which the high register contributes. -/
theorem extractLsb'_indirect (h l : Byte) {k : Nat} (above : 4 ≤ k) (top : k ≤ 12) :
    (indirect h l).extractLsb' k 4 = (h.extractLsb' (k - 4) 4 ||| l.extractLsb' k 4) := by
  refine BitVec.eq_of_getLsbD_eq fun i hi => ?_
  have shifted : k + i - 4 = k - 4 + i := by omega
  have notLow : ¬ k + i < 4 := by omega
  simp [getLsbD_indirect h l (i := k + i) (by omega), hi, shifted, notLow]

/-- The lowest four bits of the address are the low register's alone. -/
theorem extractLsb'_indirect_low (h l : Byte) :
    (indirect h l).extractLsb' 0 4 = l.extractLsb' 0 4 := by
  refine BitVec.eq_of_getLsbD_eq fun i hi => ?_
  simp [getLsbD_indirect h l (i := i) (by omega), hi]

/-- A byte has no bits from 8 up. -/
theorem extractLsb'_of_ge (b : Byte) {k : Nat} (h : 8 ≤ k) : b.extractLsb' k 4 = 0x0#4 := by
  refine BitVec.eq_of_getLsbD_eq fun i hi => ?_
  simp [hi, BitVec.getLsbD_of_ge b (k + i) (by omega)]

/-- Settles O44, four bits at a time. -/
theorem indirectAddressBits : Obligations.IndirectAddressBits := by
  intro s h l
  have bits12 := extractLsb'_indirect h l (k := 12) (by decide) (by decide)
  have bits8 := extractLsb'_indirect h l (k := 8) (by decide) (by decide)
  have bits4 := extractLsb'_indirect h l (k := 4) (by decide) (by decide)
  refine ⟨rfl, bits12.trans ?_, bits8.trans ?_, bits4, extractLsb'_indirect_low h l⟩
  · rw [extractLsb'_of_ge h (by decide), extractLsb'_of_ge l (by decide), BitVec.or_zero]
  · rw [extractLsb'_of_ge l (by decide), BitVec.or_zero]

/-- Where the two registers do not overlap the address is their sum, the high one moved up. -/
theorem toNat_indirect_of_low (h : Byte) {l : Byte} (low : l.toNat < 16) :
    (indirect h l).toNat = 16 * h.toNat + l.toNat := by
  have hh : (h.setWidth 16 <<< 4).toNat = h.toNat <<< 4 := by
    simp only [BitVec.toNat_shiftLeft, BitVec.toNat_setWidth, Nat.shiftLeft_eq]
    omega
  have hl : (l.setWidth 16).toNat = l.toNat := by
    rw [BitVec.toNat_setWidth]
    omega
  rw [indirect, BitVec.toNat_or, hh, hl, ← Nat.shiftLeft_add_eq_or_of_lt (i := 4) low,
    Nat.shiftLeft_eq, Nat.mul_comm]

/-- With a zero high register the address is the low register. -/
theorem toNat_indirect_zero (l : Byte) : (indirect 0x00#8 l).toNat = l.toNat := by
  have high : (0x00#8).setWidth 16 <<< 4 = 0x0000#16 := rfl
  rw [indirect, high, BitVec.zero_or, BitVec.toNat_setWidth]
  omega

/-- An address `a` below 0x1000 is the one of the registers `a / 16` and `a % 16`. -/
theorem indirect_div_mod {a : Addr} (h : a.toNat < 0x1000) :
    indirect (BitVec.ofNat 8 (a.toNat / 16)) (BitVec.ofNat 8 (a.toNat % 16)) = a := by
  have high : (BitVec.ofNat 8 (a.toNat / 16)).toNat = a.toNat / 16 := by
    rw [BitVec.toNat_ofNat]; omega
  have low : (BitVec.ofNat 8 (a.toNat % 16)).toNat = a.toNat % 16 := by
    rw [BitVec.toNat_ofNat]; omega
  refine BitVec.eq_of_toNat_eq ?_
  rw [toNat_indirect_of_low _ (by omega), high, low, Nat.div_add_mod]

/-- Settles O45: no address beyond 12 bits is formed, and each below is. -/
theorem indirectAddressReach : Obligations.IndirectAddressReach := by
  refine ⟨fun a => ⟨?_, fun h => ⟨_, _, indirect_div_mod h⟩⟩, toNat_indirect_zero, rfl, rfl, rfl,
    rfl, rfl, rfl⟩
  rintro ⟨h, l, rfl⟩
  exact toNat_indirect_lt h l

end Sys2Proof.Machine
end

section
/-! The legality test as a formula (spec 40_fetch_step.md R106). -/

namespace Sys2Proof

/-- Settles O5, by evaluation at each of the 256 bytes for both values of `NREG`. -/
theorem illegalBytesAreThoseOfTheFormula : Obligations.IllegalBytesAreThoseOfTheFormula := by
  unfold Obligations.IllegalBytesAreThoseOfTheFormula
  decide

end Sys2Proof
end

section
/-! NOP and HALT (spec 41_control.md R120, R122). -/

namespace Sys2Proof.Machine

/-- Settles O19: the first byte is a row of the NOP, and the NOP's case of a step is the fetch. -/
theorem nopOnlyFetches : Obligations.NopOnlyFetches := by
  refine fun u s => ⟨rfl, fun can byte => ?_⟩
  have reaches : s.Reaches (.whole (.nop u)) := can.reaches (byte ▸ decodeFirst_nopRow u)
  exact (StepCase.nop reaches).step_eq

/-- Settles O20: the first byte is a row of the HALT, and the state it leaves is not running. -/
theorem haltStopsTheCore : Obligations.HaltStopsTheCore := by
  refine fun u s => ⟨rfl, fun can byte => ⟨?_, step_idle (by simp)⟩⟩
  have reaches : s.Reaches (.whole (.halt u)) := can.reaches (byte ▸ decodeFirst_haltRow u)
  exact (StepCase.halt reaches).step_eq

end Sys2Proof.Machine
end

section
/-!
The loads and the store (spec 42_load_store.md R131, R132, R133): what each does alone and in a
step, and, from the states that `exec` can reach, what each leaves unchanged (R130).
-/

namespace Sys2Proof.Machine

/-! The second read of a step fails, with the memory's answers written out. -/

theorem step_ldi_of_read_fails {s : State} {d : Reg} {answer : ReadAnswer}
    {rest : List ReadAnswer} {info : FaultInfo} {reply : ReadReply} (h : s.Reaches (.ldi d))
    (hr : s.readAnswers = .ok :: answer :: rest)
    (hf : ReadFails .immediate (s.pc + 1#16) answer info reply) :
    step s = .next (raise info
      { s.afterFetch 1 with
        readAnswers := rest
        bus := .read .immediate (s.pc + 1#16) reply :: (s.afterFetch 1).bus }) := by
  have fails := StepCase.ldiFails h (by rw [hr]; exact hf)
  rw [fails.step_eq, hr]; rfl

theorem step_ldx_of_read_fails {s : State} {d : Reg} {answer : ReadAnswer}
    {rest : List ReadAnswer} {info : FaultInfo} {reply : ReadReply}
    (h : s.Reaches (.whole (.ldx d)))
    (hr : s.readAnswers = .ok :: answer :: rest)
    (hf : ReadFails .data s.indAddr answer info reply) :
    step s = .next (raise info
      { s.afterFetch 1 with
        readAnswers := rest
        bus := .read .data s.indAddr reply :: (s.afterFetch 1).bus }) := by
  have fails := StepCase.ldxFails h (by rw [hr]; exact hf)
  rw [fails.step_eq, hr]; rfl

/-- Settles O21: in a step the read of the immediate brings it or fails, and the increment after it
is as everywhere. -/
theorem ldiLoadsTheImmediate : Obligations.LdiLoadsTheImmediate := by
  refine ⟨fun d j imm s hd notTop => exec_ldi_ok hd imm notTop,
    fun d j imm s hd top => exec_ldi_top hd imm top, fun j s byte => ?_,
    fun r => accepted_of_row (decodeFirst_ldiRow r.number_lt_16) r.number_lt⟩
  have first : decodeFirst Config.nreg s.nextByte = .accepted (.ldi (regOfFin j)) :=
    byte ▸ decodeFirst_ldi j
  refine ⟨fun can notLast => ?_, fun can last => ?_, fun rest can hr => ?_, fun rest can hr => ?_⟩
  · exact (StepCase.ldi (can.reaches first) (regOfFin_number j) can.second_read_ok notLast).step_eq
  · exact (StepCase.ldiOverflow (can.reaches first) can.second_read_ok last).step_eq
  · exact step_ldi_of_read_fails (can.reaches first) hr (.inl ⟨rfl, rfl, rfl⟩)
  · exact step_ldi_of_read_fails (can.reaches first) hr (.inr ⟨rfl, rfl, rfl⟩)

/-- Settles O22: the second read of a step that finds an LDX is at the indirect address, and brings
the byte or fails. -/
theorem ldxLoadsFromTheIndirectAddress : Obligations.LdxLoadsFromTheIndirectAddress := by
  refine ⟨fun d j s hd ok => ?_, fun j s byte => ?_,
    fun r => accepted_of_row (decodeFirst_ldxRow r.number_lt_16) r.number_lt⟩
  · rw [List.drop_one]
    exact exec_ldx_ok hd (State.headD_of_readsOk ok)
  have first : decodeFirst Config.nreg s.nextByte = .accepted (.whole (.ldx (regOfFin j))) :=
    byte ▸ decodeFirst_ldx j
  refine ⟨fun can => ?_, fun rest can hr => ?_, fun rest can hr => ?_⟩
  · rw [← List.tail_drop, List.drop_one]
    exact (StepCase.ldx (can.reaches first) (regOfFin_number j) can.second_read_ok).step_eq
  · exact step_ldx_of_read_fails (can.reaches first) hr (.inl ⟨rfl, rfl, rfl⟩)
  · exact step_ldx_of_read_fails (can.reaches first) hr (.inr ⟨rfl, rfl, rfl⟩)

/-- Settles O23: the one write of a step that finds an STX is at the indirect address, and is done
or fails with the model's free byte in the cell. -/
theorem stxStoresAtTheIndirectAddress : Obligations.StxStoresAtTheIndirectAddress := by
  refine ⟨fun r j s hr ok => ?_, fun j s can byte => ?_,
    fun r => accepted_of_row (decodeFirst_stxRow r.number_lt_16) r.number_lt⟩
  · rw [List.drop_one]
    exact exec_stx_ok hr (State.headD_of_writesOk ok)
  have reaches : s.Reaches (.whole (.stx (regOfFin j))) := can.reaches (byte ▸ decodeFirst_stx j)
  refine ⟨fun ok => ?_, fun rest hw => ⟨Config.failedWriteByte s.freeDraws, ?_⟩⟩
  · rw [List.drop_one]
    exact (StepCase.stx reaches (regOfFin_number j) (State.headD_of_writesOk ok)).step_eq
  · have fails := StepCase.stxFails reaches (regOfFin_number j) (by rw [hw]; rfl)
    rw [fails.step_eq, hw]; rfl

/-! The states that a load and a store can reach, and their frames. -/

theorem exec_ldx_never {d : Reg} {j : Fin Config.nreg} (hj : d.number = j.val) {s : State}
    (never : s.readAnswers.headD .ok = .never) :
    exec (.ldx d) s = .fault (.memoryNeverAnswers (.read .data s.indAddr)) := by
  simp only [exec, execLdx, withReg_of_number hj, memRead_never _ _ never, Result.andThen]

theorem exec_stx_never {r : Reg} {j : Fin Config.nreg} (hj : r.number = j.val) {s : State}
    (never : s.writeAnswers.headD .ok = .never) :
    exec (.stx r) s = .fault (.memoryNeverAnswers (.write s.indAddr (s.reg j))) := by
  simp only [exec, execStx, withReg_of_number hj, memWrite_never _ _ never, Result.andThen]

/-- `s` with what reading a byte and latching it write, and nothing else. -/
def State.withRead (b : Byte) (p : Addr) (answers : List ReadAnswer) (bus : List Transaction)
    (s : State) : State :=
  { s with ir := b, pc := p, readAnswers := answers, bus := bus }

/-- The ends of a load from `s`: after its read, in which LDX leaves `ir` and `pc` alone, it has
written its register, or it has raised a fault and written none. -/
theorem exec_load_cases {i : Instr} {d : Reg} {j : Fin Config.nreg} {s t : State}
    (hi : (∃ imm, i = .ldi d imm) ∨ i = .ldx d) (hj : d.number = j.val) (h : exec i s = .next t) :
    ∃ b p answers bus, (i = .ldx d → p = s.pc ∧ b = s.ir) ∧
      ((∃ v, t = (s.withRead b p answers bus).setReg j v) ∨
        ∃ info, t = raise info (s.withRead b p answers bus)) := by
  rcases hi with ⟨imm, rfl⟩ | rfl
  · by_cases top : s.pc = 0xFFFF#16
    · rw [exec_ldi_top hj imm top] at h
      cases h
      exact ⟨_, _, _, _, nofun, .inr ⟨_, rfl⟩⟩
    · rw [exec_ldi_ok hj imm top] at h
      cases h
      exact ⟨_, _, _, _, nofun, .inl ⟨_, rfl⟩⟩
  · rcases memRead_cases .data s.indAddr s with ok | ⟨info, reply, fails⟩ | never
    · rw [exec_ldx_ok hj ok] at h
      cases h
      exact ⟨s.ir, s.pc, _, _, fun _ => ⟨rfl, rfl⟩, .inl ⟨_, rfl⟩⟩
    · rw [exec_ldx_fails hj fails] at h
      cases h
      exact ⟨s.ir, s.pc, _, _, fun _ => ⟨rfl, rfl⟩, .inr ⟨_, rfl⟩⟩
    · rw [exec_ldx_never hj never] at h
      cases h

/-- The destination of a well-formed load is a register of this hardware (R86). -/
theorem number_lt_of_load_wf {i : Instr} {d : Reg} (hi : (∃ imm, i = .ldi d imm) ∨ i = .ldx d)
    (hwf : i.wf = true) : d.number < Config.nreg := by
  rcases hi with ⟨imm, rfl⟩ | rfl <;> exact of_decide_eq_true hwf

/-- Settles O34, by the two ends of a load. -/
theorem loadInstrFrame : Obligations.LoadInstrFrame := by
  intro i d s t hi hwf h
  have has := number_lt_of_load_wf hi hwf
  obtain ⟨b, p, answers, bus, ldxKeeps, ends⟩ := exec_load_cases (j := ⟨d.number, has⟩) hi rfl h
  rcases ends with ⟨v, rfl⟩ | ⟨info, rfl⟩
  · have others : ∀ k : Fin Config.nreg, d.number ≠ k.val →
        ((s.withRead b p answers bus).setReg ⟨d.number, has⟩ v).reg k = s.reg k :=
      fun k hk => State.reg_setReg_of_not_dest (i := .ldx d) rfl (hk ∘ Option.some.inj) _ v
    exact ⟨others, rfl, fun _ => rfl, ldxKeeps, .inl ⟨rfl, rfl⟩, rfl, rfl⟩
  · exact ⟨fun _ _ => rfl, rfl, fun _ => rfl, ldxKeeps, .inr ⟨⟨_, rfl⟩, fun _ => rfl⟩, rfl, rfl⟩

/-- Settles O35, by the reply to the write: done or failed, it is one write of the cell at the
indirect address. -/
theorem storeInstrFrame : Obligations.StoreInstrFrame := by
  intro r s t hwf h
  have hj : r.number = (⟨r.number, of_decide_eq_true hwf⟩ : Fin Config.nreg).val := rfl
  cases hw : s.writeAnswers.headD .ok with
  | ok =>
    rw [exec_stx_ok hj hw] at h
    cases h
    exact ⟨fun _ ha => Memory.read_write_of_ne _ ha, fun _ => rfl, rfl, rfl, rfl, .inl ⟨rfl, rfl⟩,
      rfl⟩
  | unavailable =>
    rw [exec_stx_fails hj hw] at h
    cases h
    exact ⟨fun _ ha => Memory.read_write_of_ne _ ha, fun _ => rfl, rfl, rfl, rfl, .inr rfl, rfl⟩
  | never =>
    rw [exec_stx_never hj hw] at h
    cases h

end Sys2Proof.Machine
end

section
/-!
The ALU (spec 43_alu.md): the result and the flags in numbers and in bits (R140), what the flags
mean (R143), what ADD and ADC do with them (R141, R142), and sums of any number of bytes (R147).
-/

namespace Sys2Proof.Machine

/-! The function in numbers and bits. -/

theorem and_bit7_ne_zero : ∀ x : Byte, (x &&& 0x80#8 != 0x00#8) = x.getLsbD 7 := by decide

theorem getLsbD_7 (x : Byte) : x.getLsbD 7 = decide (128 ≤ x.toNat) :=
  (BitVec.msb_eq_getLsbD_last x).symm.trans (BitVec.msb_eq_decide x)

theorem toNat_carry (c : Bool) : c.toNat = if c then 1 else 0 := Bool.cond_eq_ite c 1 0

theorem toNat_aluResult (a b : Byte) (c : Bool) :
    (aluResult a b c).toNat = aluSum a b c % 256 := BitVec.toNat_ofNat _ _

theorem aluFlags_z_iff (a b : Byte) (c : Bool) :
    (aluFlags a b c).z = true ↔ aluResult a b c = 0x00#8 := beq_iff_eq

theorem aluFlags_n (a b : Byte) (c : Bool) :
    (aluFlags a b c).n = (aluResult a b c).getLsbD 7 := and_bit7_ne_zero _

theorem aluFlags_c_iff (a b : Byte) (c : Bool) :
    (aluFlags a b c).c = true ↔ 255 < aluSum a b c := decide_eq_true_iff

theorem aluFlags_v_iff (a b : Byte) (c : Bool) :
    (aluFlags a b c).v = true ↔
      a.getLsbD 7 = b.getLsbD 7 ∧ a.getLsbD 7 ≠ (aluResult a b c).getLsbD 7 := by
  simp only [aluFlags, and_bit7_ne_zero, BitVec.getLsbD_and, BitVec.getLsbD_not, BitVec.getLsbD_xor]
  cases a.getLsbD 7 <;> cases b.getLsbD 7 <;> simp

/-- Settles O30, flag by flag. -/
theorem aluResultAndFlagsAreExact : Obligations.AluResultAndFlagsAreExact := by
  intro a b c sum r f
  have hsum : sum = aluSum a b c := by rw [aluSum, toNat_carry]
  have hr : r.toNat = sum % 256 := hsum ▸ toNat_aluResult a b c
  refine ⟨hr, ?_, ?_, hsum ▸ aluFlags_c_iff a b c, aluFlags_v_iff a b c⟩
  · rw [aluFlags_z_iff, ← hr, ← BitVec.toNat_inj]; rfl
  · rw [aluFlags_n, getLsbD_7, decide_eq_true_iff, ← hr]

/-! What the flags mean. -/

/-- The carry flag is what the result byte leaves of the sum. -/
theorem aluResult_add_carry (a b : Byte) (c : Bool) :
    (aluResult a b c).toNat + 256 * (aluFlags a b c).c.toNat = a.toNat + b.toNat + c.toNat := by
  have low := toNat_aluResult a b c
  have hc := c.toNat_lt
  simp only [toNat_carry (aluFlags a b c).c, aluFlags_c_iff]
  rw [aluSum] at low ⊢
  split <;> omega

theorem toInt_eq_ite (x : Byte) :
    x.toInt = if 128 ≤ x.toNat then (x.toNat : Int) - 256 else x.toNat := by
  simp only [BitVec.toInt_eq_msb_cond, BitVec.msb_eq_decide, decide_eq_true_iff]
  rfl

/-- V says that the sum of the signed readings does not fit in a signed byte. -/
theorem aluFlags_v_iff_not_fits (a b : Byte) (c : Bool) :
    (aluFlags a b c).v = true ↔
      a.toInt + b.toInt + c.toNat < -128 ∨ 127 < a.toInt + b.toInt + c.toNat := by
  have low := toNat_aluResult a b c
  have hc := c.toNat_lt
  rw [aluSum] at low
  simp only [aluFlags_v_iff, Ne, getLsbD_7, decide_eq_decide, toInt_eq_ite]
  split <;> split <;> omega

/-- V is clear when the result reads as the signed sum: the two differ by a multiple of 256, and a
byte's reading is in range. -/
theorem aluFlags_v_eq_false_iff (a b : Byte) (c : Bool) :
    (aluFlags a b c).v = false ↔ (aluResult a b c).toInt = a.toInt + b.toInt + c.toNat := by
  have sum := aluResult_add_carry a b c
  rw [← Bool.not_eq_true, aluFlags_v_iff_not_fits]
  simp only [toInt_eq_ite]
  split <;> split <;> split <;> omega

/-- Settles O31: V by the range of the signed sum, C by what is left of the unsigned one. -/
theorem flagsMeanSignAndOverflow : Obligations.FlagsMeanSignAndOverflow := by
  intro a b c f r carry
  have hcarry : carry = c.toNat := by cases c <;> rfl
  have sum : r.toNat + 256 * f.c.toNat = a.toNat + b.toNat + c.toNat := aluResult_add_carry a b c
  refine ⟨hcarry ▸ aluFlags_v_iff_not_fits a b c, hcarry ▸ (aluFlags_v_eq_false_iff a b c).1, ?_,
    fun hc => ?_, fun hc => ?_, ?_⟩
  · have sign : f.n = decide (128 ≤ r.toNat) := (aluFlags_n a b c).trans (getLsbD_7 r)
    rw [sign, decide_eq_true_iff, BitVec.toInt_neg_iff]
    omega
  · have one : f.c.toNat = 1 := by rw [hc]; rfl
    omega
  · have none : f.c.toNat = 0 := by rw [hc]; rfl
    omega
  · rintro ⟨zero, negative⟩
    rw [aluFlags_n, (aluFlags_z_iff a b c).1 zero] at negative
    exact absurd negative (by decide)

/-! The two instructions. -/

/-- Settles O24: the first byte is ADD's, and a state that can fetch runs it. -/
theorem addSumsR0AndR1 : Obligations.AddSumsR0AndR1 :=
  fun _ => ⟨rfl, fun can byte => (StepCase.add (can.reaches (byte ▸ decodeFirst_add))).step_eq⟩

/-- Settles O25: the first byte is ADC's, and the fetch leaves the C that ADC reads. -/
theorem adcSumsR0R1AndCarry : Obligations.AdcSumsR0R1AndCarry :=
  fun _ => ⟨rfl, fun can byte => (StepCase.adc (can.reaches (byte ▸ decodeFirst_adc))).step_eq⟩

/-! Sums of any number of bytes. -/

theorem numberOf_lt (bs : List Byte) : numberOf bs < 256 ^ bs.length := by
  induction bs with
  | nil => exact Nat.one_pos
  | cons b bs ih =>
    rw [numberOf, List.length_cons, Nat.pow_succ]
    omega

/-- The two's-complement reading of one byte is the byte's. -/
theorem signedOf_one (b : Byte) : signedOf 1 b.toNat = b.toInt := by
  rw [signedOf, BitVec.toInt_eq_toNat_cond]
  rfl

/-- The sign of a number of more than one byte is that of the bytes above the first. -/
theorem signedOf_succ {k : Nat} (hk : 0 < k) (b : Byte) (n : Nat) :
    signedOf (k + 1) (b.toNat + 256 * n) = b.toNat + 256 * signedOf k n := by
  have sign : 2 * (b.toNat + 256 * n) < 256 ^ (k + 1) ↔ 2 * n < 256 ^ k := by
    obtain ⟨k, rfl⟩ := Nat.exists_eq_add_one_of_ne_zero hk.ne'
    simp only [Nat.pow_succ]
    omega
  simp only [signedOf, sign]
  split <;> push_cast <;> ring

/-- What the result bytes `bs` and the flags and R0 of `t` say when they are the sum of the numbers
that the pairs spell and of a carry-in. -/
structure IsSumOf (pairs : List (Byte × Byte)) (c : Bool) (bs : List Byte) (t : State) : Prop where
  length : bs.length = pairs.length
  sum : numberOf bs + 256 ^ pairs.length * t.flags.c.toNat =
    numberOf (pairs.map Prod.fst) + numberOf (pairs.map Prod.snd) + c.toNat
  overflow : t.flags.v = false ↔ signedOf pairs.length (numberOf bs) =
    signedOf pairs.length (numberOf (pairs.map Prod.fst)) +
      signedOf pairs.length (numberOf (pairs.map Prod.snd)) + c.toNat
  zero : t.flags.z = true ↔ t.reg 0 = 0x00#8
  negative : t.flags.n = (t.reg 0).getLsbD 7
  last : bs.getLast? = some (t.reg 0)

/-- A sum of one byte is the ALU's. -/
theorem isSumOf_singleton {a b : Byte} {c : Bool} {t : State} (hf : t.flags = aluFlags a b c)
    (hr : t.reg 0 = aluResult a b c) : IsSumOf [(a, b)] c [aluResult a b c] t where
  length := rfl
  sum := by simpa [numberOf, hf] using aluResult_add_carry a b c
  overflow := by simpa [numberOf, signedOf_one, hf] using aluFlags_v_eq_false_iff a b c
  zero := by rw [hf, hr]; exact aluFlags_z_iff a b c
  negative := by rw [hf, hr]; exact aluFlags_n a b c
  last := by rw [hr]; rfl

/-- The sum of one byte below, and of the others with its carry, is the sum of all. -/
theorem IsSumOf.cons {a b : Byte} {c : Bool} {pairs : List (Byte × Byte)} {bs : List Byte}
    {t : State} (h : IsSumOf pairs (aluFlags a b c).c bs t) (hne : pairs ≠ []) :
    IsSumOf ((a, b) :: pairs) c (aluResult a b c :: bs) t where
  length := congrArg Nat.succ h.length
  sum := by
    have upper := h.sum
    have lowest := aluResult_add_carry a b c
    simp only [List.length_cons, List.map_cons, numberOf, Nat.pow_succ]
    linarith
  overflow := by
    have lowest := aluResult_add_carry a b c
    have hk := List.length_pos_of_ne_nil hne
    rw [h.overflow]
    simp only [List.length_cons, List.map_cons, numberOf, signedOf_succ hk]
    omega
  zero := h.zero
  negative := h.negative
  last := by
    obtain ⟨front, rfl⟩ := List.getLast?_eq_some_iff.1 h.last
    exact List.getLast?_concat (l := _ :: front)

/-- The carry-in of the first instruction: ADD ignores C, ADC adds it. -/
def carryIn (first : Bool) (s : State) : Bool := !first && s.flags.c

/-- The state after the first pair. -/
def addPair (first : Bool) (a b : Byte) (s : State) : State :=
  aluInto (carryIn first s) (s.withAluOperands a b)

theorem exec_add_or_adc (first : Bool) (a b : Byte) (s : State) :
    exec (if first then .add else .adc) (s.withAluOperands a b) = .next (addPair first a b s) := by
  cases first <;> rfl

theorem reg_aluA_withAluOperands (a b : Byte) (s : State) :
    (s.withAluOperands a b).reg aluA = a := by
  simp [State.withAluOperands, aluA, aluB]

theorem reg_aluB_withAluOperands (a b : Byte) (s : State) :
    (s.withAluOperands a b).reg aluB = b := by
  simp [State.withAluOperands]

theorem addPair_flags (first : Bool) (a b : Byte) (s : State) :
    (addPair first a b s).flags = aluFlags a b (carryIn first s) := by
  rw [addPair, aluInto_flags, reg_aluA_withAluOperands, reg_aluB_withAluOperands]

theorem addPair_reg_aluDst (first : Bool) (a b : Byte) (s : State) :
    (addPair first a b s).reg aluDst = aluResult a b (carryIn first s) := by
  rw [addPair, aluInto_reg, if_pos rfl, reg_aluA_withAluOperands, reg_aluB_withAluOperands]

/-- If the later pairs give `bs`, all of them give the first pair's result and `bs`. -/
theorem addBytes_cons {first : Bool} {a b : Byte} {rest : List (Byte × Byte)} {s t : State}
    {bs : List Byte} (h : addBytes false rest (addPair first a b s) = some (bs, t)) :
    addBytes first ((a, b) :: rest) s = some (aluResult a b (carryIn first s) :: bs, t) := by
  simp only [addBytes, exec_add_or_adc, h, addPair_reg_aluDst]

/-- ADD or ADC on the first pair and ADC on each later one sum the numbers that the pairs spell. -/
theorem addBytes_isSumOf {pairs : List (Byte × Byte)} (hne : pairs ≠ []) (first : Bool)
    (s : State) :
    ∃ bs t, addBytes first pairs s = some (bs, t) ∧ IsSumOf pairs (carryIn first s) bs t := by
  induction pairs generalizing first s with
  | nil => exact absurd rfl hne
  | cons pair rest ih =>
    obtain ⟨a, b⟩ := pair
    cases rest with
    | nil =>
      exact ⟨_, _, addBytes_cons rfl,
        isSumOf_singleton (addPair_flags first a b s) (addPair_reg_aluDst first a b s)⟩
    | cons next others =>
      have later := List.cons_ne_nil next others
      obtain ⟨bs, t, runs, sums⟩ := ih later false (addPair first a b s)
      have carried : carryIn false (addPair first a b s) = (aluFlags a b (carryIn first s)).c :=
        congrArg Flags.c (addPair_flags first a b s)
      rw [carried] at sums
      exact ⟨_, t, addBytes_cons runs, sums.cons later⟩

/-- Settles O32: the exact sum splits into its low bytes and its carry. -/
theorem addThenAdcAddsWholeNumbers : Obligations.AddThenAdcAddsWholeNumbers := by
  intro pairs s hne k x y
  obtain ⟨bs, t, runs, sums⟩ := addBytes_isSumOf hne true s
  obtain ⟨length, sum, overflow, zero, negative, last⟩ := sums
  have low : numberOf bs < 256 ^ k := (numberOf_lt bs).trans_eq (congrArg _ length)
  have sum : numberOf bs + 256 ^ k * t.flags.c.toNat = x + y := sum
  have overflow : t.flags.v = false ↔ signedOf k (numberOf bs) = signedOf k x + signedOf k y + 0 :=
    overflow
  refine ⟨bs, t, runs, length, ?_, ?_, ?_, zero, negative ▸ Iff.rfl, last⟩
  · rw [← sum, Nat.add_mul_mod_self_left, Nat.mod_eq_of_lt low]
  · rw [← sum]
    cases t.flags.c <;> simp [low]
  · rw [← Bool.not_eq_false, overflow, add_zero, ne_comm]

end Sys2Proof.Machine
end

section
/-!
The register moves (spec 44_move.md): what MOVIN and MOVOUT do alone and in a step (R150, R151), and
that a move between the two primary registers has two encodings with one effect (R153).
-/

namespace Sys2Proof.Machine

/-- The number of a primary register, as the syntax names it and as the machine does. -/
theorem reg_number_eq_primary (p : Primary) : p.reg.number = (primary p).val := by
  cases p <;> rfl

/-- A step that finds a MOVIN of either primary register. -/
theorem step_movin (p : Primary) {j : Fin Config.nreg} {s : State} (can : s.CanFetch 1)
    (byte : s.nextByte = BitVec.ofNat 8 (0x60 + 8 * p.reg.number + j.val)) :
    step s = .next ((s.afterFetch 1).setReg (primary p) (s.reg j)) := by
  have reaches : s.Reaches (.whole (.movin p (regOfFin j))) :=
    can.reaches (byte ▸ decodeFirst_movin p j)
  exact (StepCase.movin reaches (regOfFin_number j)).step_eq

/-- A step that finds a MOVOUT of either primary register. -/
theorem step_movout (p : Primary) {j : Fin Config.nreg} {s : State} (can : s.CanFetch 1)
    (byte : s.nextByte = BitVec.ofNat 8 (0x70 + 8 * p.reg.number + j.val)) :
    step s = .next ((s.afterFetch 1).setReg j (s.reg (primary p))) := by
  have reaches : s.Reaches (.whole (.movout p (regOfFin j))) :=
    can.reaches (byte ▸ decodeFirst_movout p j)
  exact (StepCase.movout reaches (regOfFin_number j)).step_eq

/-- Settles O26: the two destinations are the two values of `p`. -/
theorem movinCopiesToAPrimary : Obligations.MovinCopiesToAPrimary :=
  ⟨fun _ _ s hr => ⟨exec_movin_ok .p0 hr s, exec_movin_ok .p1 hr s⟩,
    fun _ _ can => ⟨step_movin .p0 can, step_movin .p1 can⟩⟩

/-- Settles O27: the two sources are the two values of `p`. -/
theorem movoutCopiesFromAPrimary : Obligations.MovoutCopiesFromAPrimary :=
  ⟨fun _ _ s hd => ⟨exec_movout_ok .p0 hd s, exec_movout_ok .p1 hd s⟩,
    fun _ _ can => ⟨step_movout .p0 can, step_movout .p1 can⟩⟩

/-- Settles O28: both encodings write the register of `p` with the value of the register of `q`. -/
theorem movesBetweenPrimariesAgree : Obligations.MovesBetweenPrimariesAgree := by
  intro p q s
  calc exec (.movin p q.reg) s
    _ = .next (s.setReg (primary p) (s.reg (primary q))) :=
      exec_movin_ok p (reg_number_eq_primary q) s
    _ = exec (.movout q p.reg) s := (exec_movout_ok q (reg_number_eq_primary p) s).symm

end Sys2Proof.Machine
end

section
/-!
The faults a step can raise, as the machine raises them: `DecodeError`, and the two memory errors at
each of the three reads and at the write (spec 60_exceptions.md R162, R164, R165); and the order in
which a step meets them (R167).
-/

namespace Sys2Proof.Machine

/-- Settles O16: the illegal case of a step, whose record names the byte and the `pc` before it. -/
theorem illegalByteRaisesDecodeError : Obligations.IllegalByteRaisesDecodeError := by
  rintro s ⟨running, notTop, ok⟩ hi
  obtain ⟨e, rejected⟩ := illegal_iff.1 hi
  exact step_illegal running (State.headD_of_readsOk ok) notTop rejected

/-- The first read of a step fails, with the memory's answers written out. -/
theorem step_of_fetch_fails {s : State} {answer : ReadAnswer} {rest : List ReadAnswer}
    {info : FaultInfo} {reply : ReadReply} (h : s.status = .running)
    (hr : s.readAnswers = answer :: rest) (hf : ReadFails .instruction s.pc answer info reply) :
    step s = .next (raise info
      { s with readAnswers := rest, bus := .read .instruction s.pc reply :: s.bus }) := by
  rw [step_fetchFails h (by rw [hr]; exact hf), hr]; rfl

/-- The read of an LDX fails, with the memory's answers written out. -/
theorem exec_ldx_of_read_fails {d : Reg} {j : Fin Config.nreg} (hj : d.number = j.val) {s : State}
    {answer : ReadAnswer} {rest : List ReadAnswer} {info : FaultInfo} {reply : ReadReply}
    (hr : s.readAnswers = answer :: rest) (hf : ReadFails .data s.indAddr answer info reply) :
    exec (.ldx d) s = .next (raise info
      { s with readAnswers := rest, bus := .read .data s.indAddr reply :: s.bus }) := by
  rw [exec_ldx_fails hj (by rw [hr]; exact hf), hr]; rfl

/-- Settles O52: a corrupt read is one of the two ways in which each of the three reads fails. -/
theorem corruptReadWritesNothing : Obligations.CorruptReadWritesNothing := by
  refine fun s rest => ⟨fun running hr => ?_, fun j can hr byte => ?_, fun d j hr hd => ?_⟩
  · exact step_of_fetch_fails running hr (.inl ⟨rfl, rfl, rfl⟩)
  · have reaches : s.Reaches (.ldi (regOfFin j)) := can.reaches (byte ▸ decodeFirst_ldi j)
    exact step_ldi_of_read_fails reaches hr (.inl ⟨rfl, rfl, rfl⟩)
  · exact exec_ldx_of_read_fails hd hr (.inl ⟨rfl, rfl, rfl⟩)

/-- Settles O53: a read that finds the memory unavailable is the other way, and an STX that does
leaves the model's free byte in its cell. -/
theorem unavailableMemoryWritesNoRegister : Obligations.UnavailableMemoryWritesNoRegister := by
  refine ⟨fun s rest => ⟨fun running hr => ?_, fun j can hr byte => ?_, fun d j hr hd => ?_⟩,
    fun s rest r j hw hj => ⟨Config.failedWriteByte s.freeDraws, ?_⟩⟩
  · exact step_of_fetch_fails running hr (.inr ⟨rfl, rfl, rfl⟩)
  · have reaches : s.Reaches (.ldi (regOfFin j)) := can.reaches (byte ▸ decodeFirst_ldi j)
    exact step_ldi_of_read_fails reaches hr (.inr ⟨rfl, rfl, rfl⟩)
  · exact exec_ldx_of_read_fails hd hr (.inr ⟨rfl, rfl, rfl⟩)
  · rw [exec_stx_fails hj (by rw [hw]; rfl), hw]; rfl

/-- The second read of a step that finds an LDI or an LDX fails. -/
theorem step_of_second_read_fails {s : State} {j : Fin Config.nreg} {answer : ReadAnswer}
    {rest : List ReadAnswer} (running : s.status = .running)
    (hr : s.readAnswers = .ok :: answer :: rest) (notTop : s.pc ≠ 0xFFFF#16)
    (byte : s.nextByte = BitVec.ofNat 8 (0x10 + j.val) ∨
      s.nextByte = BitVec.ofNat 8 (0x20 + j.val)) :
    (answer = .corruption → ∃ t, step s = .next t ∧ t.status = .faulted .memCorruption) ∧
      (answer = .unavailable → ∃ t, step s = .next t ∧ t.status = .faulted .memUnavailable) := by
  have ok : s.readAnswers.headD .ok = .ok := by rw [hr]; rfl
  rcases byte with byte | byte
  · have reaches : s.Reaches (.ldi (regOfFin j)) :=
      ⟨running, ok, notTop, byte ▸ decodeFirst_ldi j⟩
    exact ⟨fun he => ⟨_, step_ldi_of_read_fails reaches hr (.inl ⟨he, rfl, rfl⟩), rfl⟩,
      fun he => ⟨_, step_ldi_of_read_fails reaches hr (.inr ⟨he, rfl, rfl⟩), rfl⟩⟩
  · have reaches : s.Reaches (.whole (.ldx (regOfFin j))) :=
      ⟨running, ok, notTop, byte ▸ decodeFirst_ldx j⟩
    exact ⟨fun he => ⟨_, step_ldx_of_read_fails reaches hr (.inl ⟨he, rfl, rfl⟩), rfl⟩,
      fun he => ⟨_, step_ldx_of_read_fails reaches hr (.inr ⟨he, rfl, rfl⟩), rfl⟩⟩

/-- Settles O42: each condition, with those before it met, is one case of a step. -/
theorem firstFaultMetIsRaised : Obligations.FirstFaultMetIsRaised := by
  refine fun s running => ⟨fun rest hr => ?_, fun rest hr => ?_, fun ok top => ?_,
    fun ok notTop hi => ?_,
    fun _ _ _ => step_of_second_read_fails running,
    fun j ok last byte => ?_, fun j rest ok notTop byte hw => ?_⟩
  · exact ⟨_, step_of_fetch_fails running hr (.inl ⟨rfl, rfl, rfl⟩), rfl⟩
  · exact ⟨_, step_of_fetch_fails running hr (.inr ⟨rfl, rfl, rfl⟩), rfl⟩
  · exact ⟨_, step_overflow running (State.headD_of_readsOk ok) top, rfl⟩
  · exact ⟨_, illegalByteRaisesDecodeError s ⟨running, notTop, ok⟩ hi, rfl⟩
  · have can : s.CanFetch 2 := ⟨running, by rw [last]; decide, ok⟩
    have reaches : s.Reaches (.ldi (regOfFin j)) := can.reaches (byte ▸ decodeFirst_ldi j)
    exact ⟨_, (StepCase.ldiOverflow reaches can.second_read_ok last).step_eq, rfl⟩
  · have can : s.CanFetch 1 := ⟨running, notTop, ok⟩
    have reaches : s.Reaches (.whole (.stx (regOfFin j))) := can.reaches (byte ▸ decodeFirst_stx j)
    have fails := StepCase.stxFails reaches (regOfFin_number j) (by rw [hw]; rfl)
    exact ⟨_, fails.step_eq, rfl⟩

end Sys2Proof.Machine
end

section
/-!
Faults are precise (spec 60_exceptions.md R168): the places in a step where a fault can arise, what
`ir` and `pc` hold at each, and what a faulting step leaves alone.
-/

namespace Sys2Proof.Machine

theorem State.readsOk_one_iff {s : State} : s.ReadsOk 1 ↔ s.readAnswers.headD .ok = .ok := by
  cases h : s.readAnswers <;> simp [State.ReadsOk, h]

theorem ReadFails.answer_ne_ok {kind : ReadKind} {a : Addr} {answer : ReadAnswer}
    {info : FaultInfo} {reply : ReadReply} (h : ReadFails kind a answer info reply) :
    answer ≠ .ok := by
  rcases h with ⟨rfl, -, -⟩ | ⟨rfl, -, -⟩ <;> decide

theorem ReadFails.kind_ne_pcOverflow {kind : ReadKind} {a : Addr} {answer : ReadAnswer}
    {info : FaultInfo} {reply : ReadReply} (h : ReadFails kind a answer info reply) :
    info.kind ≠ .pcOverflow := by
  rcases h.kind_eq with hk | hk <;> rw [hk] <;> decide

/-- The places in a step where a fault of kind `k` can arise, with what `ir` and `pc` then hold. -/
inductive State.FaultPlace (s t : State) (k : FaultKind) : Prop where
  | fetchRead (fails : ¬ s.ReadsOk 1) (pc : t.pc = s.pc) (ir : t.ir = s.ir)
  | fetchIncrement (ok : s.ReadsOk 1) (top : s.pc = 0xFFFF#16) (kind : k = .pcOverflow)
      (pc : t.pc = s.pc) (ir : t.ir = s.nextByte)
  | execute (ok : s.ReadsOk 1) (notTop : s.pc ≠ 0xFFFF#16) (kind : k ≠ .pcOverflow)
      (pc : t.pc = s.pc + 1#16) (ir : t.ir = s.nextByte)
  | immediateIncrement (ok : s.ReadsOk 1) (last : s.pc = 0xFFFE#16) (kind : k = .pcOverflow)
      (pc : t.pc = s.pc + 1#16) (ir : t.ir = s.immByte)

/-- A fault after a completed fetch, other than a `PcOverflow`. -/
theorem State.Reaches.faultPlace {s t : State} {f : FirstByte} {k : FaultKind} (h : s.Reaches f)
    (kind : k ≠ .pcOverflow) (pc : t.pc = s.pc + 1#16) (ir : t.ir = s.nextByte) :
    s.FaultPlace t k :=
  .execute (State.readsOk_one_iff.2 h.ok) h.notTop kind pc ir

/-- A running step that faults does so at one of the places. -/
theorem StepCase.faultPlace {s t : State} {k : FaultKind} (c : StepCase s t)
    (running : s.status = .running) (ht : t.status = .faulted k) : s.FaultPlace t k := by
  cases c with
  | idle h => exact absurd running h
  | nop | ldi | ldx | stx | add | adc | movin | movout => cases running.symm.trans ht
  | halt => cases ht
  | fetchFails _ hf => exact .fetchRead (mt State.readsOk_one_iff.1 hf.answer_ne_ok) rfl rfl
  | overflow _ ok top =>
    cases ht
    exact .fetchIncrement (State.readsOk_one_iff.2 ok) top rfl rfl rfl
  | illegal _ ok notTop =>
    cases ht
    exact .execute (State.readsOk_one_iff.2 ok) notTop nofun rfl rfl
  | ldiFails h hf | ldxFails h hf =>
    cases ht
    exact h.faultPlace hf.kind_ne_pcOverflow rfl rfl
  | ldiOverflow h _ last =>
    cases ht
    exact .immediateIncrement (State.readsOk_one_iff.2 h.ok) last rfl rfl rfl
  | stxFails h =>
    cases ht
    exact h.faultPlace nofun rfl rfl

/-- A faulting step writes no register and no flag, and memory only by an STX that fails. -/
theorem StepCase.fault_frame {s t : State} {k : FaultKind} (c : StepCase s t)
    (running : s.status = .running) (ht : t.status = .faulted k) :
    t.regs = s.regs ∧ t.flags = s.flags ∧
      (t.mem = s.mem ∨
        k = .memUnavailable ∧ t.faultInfo = some (.memUnavailable s.indAddr .write) ∧
          ∃ v, t.mem = Memory.write s.mem s.indAddr v) := by
  cases c with
  | idle h => exact absurd running h
  | nop | ldi | ldx | stx | add | adc | movin | movout => cases running.symm.trans ht
  | halt => cases ht
  | fetchFails | overflow | illegal | ldiFails | ldiOverflow | ldxFails =>
    exact ⟨rfl, rfl, .inl rfl⟩
  | stxFails =>
    cases ht
    exact ⟨rfl, rfl, .inr ⟨rfl, rfl, _, rfl⟩⟩

/-- Settles O41: what a faulting step leaves alone, and the place of the fault for `ir` and `pc`. -/
theorem faultsArePrecise : Obligations.FaultsArePrecise := by
  intro s t k running h ht
  have c := step_eq_next_iff.1 h
  obtain ⟨regs, flags, memory⟩ := c.fault_frame running ht
  refine ⟨State.reg_congr regs, flags, fun a ha => ?_, ?_⟩
  · rcases memory with kept | ⟨kind, record, v, written⟩
    · rw [kept] at ha
      exact absurd rfl ha
    · have target : a = s.indAddr :=
        of_not_not fun hne => ha (by rw [written, Memory.read_write_of_ne v hne])
      exact ⟨kind, target, target ▸ record⟩
  · cases c.faultPlace running ht with
    | fetchRead fails pc ir =>
      exact ⟨fun _ => ⟨pc, ir⟩, fun ok => absurd ok fails, fun ok => absurd ok fails⟩
    | fetchIncrement ok top kind pc ir =>
      exact ⟨absurd ok, fun _ _ => ⟨kind, pc.trans top, ir⟩, fun _ notTop => absurd top notTop⟩
    | execute ok notTop kind pc ir =>
      exact ⟨absurd ok, fun _ top => absurd top notTop,
        fun _ _ => ⟨pc, fun _ => ir, fun hk => absurd hk kind⟩⟩
    | immediateIncrement ok last kind pc ir =>
      rw [State.immByte, pc_succ_eq_top.2 last] at ir
      refine ⟨absurd ok, fun _ top => ?_,
        fun _ _ => ⟨pc, fun hk => absurd kind hk, fun _ => ⟨last, ir⟩⟩⟩
      rw [last] at top
      cases top

end Sys2Proof.Machine
end

section
/-! The outputs `halted` and `fault` (spec 60_exceptions.md R182). -/

namespace Sys2Proof.Machine

theorem State.haltedOut_iff {s : State} : s.haltedOut = true ↔ s.status = .halted := by
  simp [State.haltedOut]

theorem State.faultOut_of_faulted {s : State} {k : FaultKind} (h : s.status = .faulted k) :
    s.faultOut = k.code := by
  rw [State.faultOut, h]

/-- Code 0 is no fault's (R160). -/
theorem FaultKind.code_ne_zero (k : FaultKind) : k.code ≠ 0#3 := by cases k <;> decide

theorem State.faultOut_eq_zero_iff {s : State} :
    s.faultOut = 0#3 ↔ s.status = .running ∨ s.status = .halted := by
  cases h : s.status with
  | running | halted => simp [State.faultOut, h]
  | faulted k => simp [State.faultOut_of_faulted h, k.code_ne_zero]

/-- Settles O55: the outputs are read off the status, and once one is non-zero every step is
idle. -/
theorem haltedAndFaultOutputs : Obligations.HaltedAndFaultOutputs := by
  refine fun s => ⟨State.haltedOut_iff, State.faultOut_eq_zero_iff, State.faultOut_of_faulted,
    State.faultOut_of_faulted, State.faultOut_of_faulted, State.faultOut_of_faulted,
    fun ⟨halted, fault⟩ => fault ?_, fun t out h => ?_⟩
  · exact State.faultOut_eq_zero_iff.2 (.inr (State.haltedOut_iff.1 halted))
  · have stopped : s.status ≠ .running := fun running => by
      rcases out with halted | fault
      · cases running.symm.trans (State.haltedOut_iff.1 halted)
      · exact fault (State.faultOut_eq_zero_iff.2 (.inl running))
    rw [step_idle stopped] at h
    cases h
    exact ⟨rfl, rfl⟩

end Sys2Proof.Machine
end

section
/-!
The debug trace (spec 60_exceptions.md R180, 40_fetch_step.md R103): the bytes that the fetches of a
running step bring, and that the step adds these to the trace.
-/

namespace Sys2Proof.Machine

/-- The bytes that the fetches of a running step bring, the newest first: none if the instruction
read fails; otherwise the instruction byte and, where that is an LDI below the top, the immediate if
its read succeeds. -/
def State.bytesFetched (s : State) : List Byte :=
  if s.readAnswers.headD .ok = .ok then
    if s.pc = 0xFFFF#16 then [s.nextByte]
    else
      match decodeFirst Config.nreg s.nextByte with
      | .rejected _ => [s.nextByte]
      | .accepted (.whole _) => [s.nextByte]
      | .accepted (.ldi _) =>
        if s.readAnswers.tail.headD .ok = .ok then [s.immByte, s.nextByte] else [s.nextByte]
  else []

theorem State.bytesFetched_of_read_fails {s : State} (h : s.readAnswers.headD .ok ≠ .ok) :
    s.bytesFetched = [] := if_neg h

/-- The instruction byte alone: at the top, or where it begins no LDI. -/
theorem State.bytesFetched_of_not_ldi {s : State} (ok : s.readAnswers.headD .ok = .ok)
    (h : s.pc = 0xFFFF#16 ∨ ∀ d, decodeFirst Config.nreg s.nextByte ≠ .accepted (.ldi d)) :
    s.bytesFetched = [s.nextByte] := by
  rw [State.bytesFetched, if_pos ok]
  split
  · rfl
  · next notTop =>
    split
    · rfl
    · rfl
    · next d first => exact absurd first (h.resolve_left notTop d)

theorem State.Reaches.bytesFetched_whole {s : State} {i : Instr} (h : s.Reaches (.whole i)) :
    s.bytesFetched = [s.nextByte] :=
  State.bytesFetched_of_not_ldi h.ok (.inr fun d first => by cases h.first.symm.trans first)

theorem State.Reaches.bytesFetched_ldi {s : State} {d : Reg} (h : s.Reaches (.ldi d)) :
    s.bytesFetched =
      if s.readAnswers.tail.headD .ok = .ok then [s.immByte, s.nextByte] else [s.nextByte] := by
  simp only [State.bytesFetched, if_pos h.ok, if_neg h.notTop, h.first]

/-- A read that fails brings `fetch()` no byte. -/
theorem ReadFails.fetched_eq_none {kind : ReadKind} {a : Addr} {answer : ReadAnswer}
    {info : FaultInfo} {reply : ReadReply} (hf : ReadFails kind a answer info reply) :
    (Transaction.read kind a reply).fetched = none :=
  Option.map_eq_none_iff.1 hf.fetchAddr_eq_none

/-- A running step adds to the trace the bytes that its fetches bring. -/
theorem StepCase.debugFetched_eq {s t : State} (c : StepCase s t) (running : s.status = .running) :
    t.debugFetched true = s.bytesFetched ++ s.debugFetched true := by
  cases c with
  | idle h => exact absurd running h
  | fetchFails _ hf =>
    rw [State.bytesFetched_of_read_fails hf.answer_ne_ok]
    exact List.filterMap_cons_none hf.fetched_eq_none
  | overflow _ ok top => rw [State.bytesFetched_of_not_ldi ok (.inl top)]; rfl
  | illegal _ ok _ hd =>
    rw [State.bytesFetched_of_not_ldi ok (.inr fun d first => by cases hd.symm.trans first)]; rfl
  | nop h | halt h | add h | adc h | movin h | movout h | ldx h | ldxFails h | stx h | stxFails h =>
    rw [h.bytesFetched_whole]; rfl
  | ldi h _ ok | ldiOverflow h ok => rw [h.bytesFetched_ldi, if_pos ok]; rfl
  | ldiFails h hf =>
    rw [h.bytesFetched_ldi, if_neg hf.answer_ne_ok]
    exact List.filterMap_cons_none hf.fetched_eq_none

/-- Settles O56: mask and line are their definitions, and the trace grows by the bytes that the
step's fetches bring. -/
theorem debugTraceShowsTheFlags : Obligations.DebugTraceShowsTheFlags := by
  refine ⟨rfl, rfl, fun _ => rfl, fun _ => ⟨rfl, rfl, rfl⟩, rfl, fun s t running h => ?_⟩
  have grows := (step_eq_next_iff.1 h).debugFetched_eq running
  refine ⟨fun e rest hr he => ?_, fun ok single => ?_,
    fun j notTop byte => ⟨fun ok => ?_, fun e rest hr he => ?_⟩⟩
  · rw [grows, State.bytesFetched_of_read_fails (by rw [hr]; exact he)]; rfl
  · have noLdi : s.pc = 0xFFFF#16 ∨
        ∀ d, decodeFirst Config.nreg s.nextByte ≠ .accepted (.ldi d) := by
      refine single.imp_right fun other d first => ?_
      obtain ⟨byte, exists_reg⟩ := agrees_of_decodeFirst first
      exact other ⟨d.number, exists_reg⟩ byte
    rw [grows, State.bytesFetched_of_not_ldi (State.headD_of_readsOk ok) noLdi]; rfl
  · have can : s.CanFetch 2 := ⟨running, notTop, ok⟩
    have reaches : s.Reaches (.ldi (regOfFin j)) := can.reaches (byte ▸ decodeFirst_ldi j)
    rw [grows, reaches.bytesFetched_ldi, if_pos can.second_read_ok]; rfl
  · have reaches : s.Reaches (.ldi (regOfFin j)) :=
      ⟨running, by rw [hr]; rfl, notTop, byte ▸ decodeFirst_ldi j⟩
    rw [grows, reaches.bytesFetched_ldi, if_neg (by rw [hr]; exact he)]; rfl

end Sys2Proof.Machine
end

section
/-!
Every run ends (spec 70_reset_and_hazards.md R200, from 40_fetch_step.md R112): a step that leaves
the core running has advanced `pc`, which has 65536 values.
-/

namespace Sys2Proof.Machine

/-- A core that still runs after a step ran before it, and the step has advanced `pc`. -/
theorem StepCase.pc_lt_of_running {s t : State} (c : StepCase s t) (ht : t.status = .running) :
    s.status = .running ∧ s.pc.toNat < t.pc.toNat := by
  rcases c.idle_or_completes_or_faults with ⟨hs, rfl⟩ | ⟨f, hc⟩ | ⟨info, hf⟩
  · exact absurd ht hs
  · have positive : 0 < f.length := by
      rw [length_of_decodeFirst hc.reaches.first]; split <;> omega
    exact ⟨hc.reaches.running, by rw [hc.pc]; omega⟩
  · rw [hf.status] at ht; cases ht

/-- A memory that answers lets `k` steps be taken; if the core still runs after them, it ran all
along, and each of them has advanced `pc`. -/
theorem run_next_of_memoryAnswers (k : Nat) {s : State} (h : s.MemoryAnswers) :
    ∃ t, Host.Core.run Sys2Proof.core k s = .next t ∧
      (t.status = .running → s.status = .running ∧ s.pc.toNat + k ≤ t.pc.toNat) := by
  induction k generalizing s with
  | zero => exact ⟨s, rfl, fun hs => ⟨hs, le_rfl⟩⟩
  | succ k ih =>
    obtain ⟨s1, hs1⟩ := step_next_of_memoryAnswers h
    have c := step_eq_next_iff.1 hs1
    obtain ⟨t, hrun, ht⟩ := ih (c.memoryAnswers h)
    refine ⟨t, (run_succ_of_next hs1 k).trans hrun, fun running => ?_⟩
    obtain ⟨running1, rest⟩ := ht running
    obtain ⟨running0, first⟩ := c.pc_lt_of_running running1
    exact ⟨running0, by omega⟩

/-- Settles O43: after 65536 steps that all left the core running, `pc` would be past the top of the
address space. -/
theorem everyRunEndsWithin65536Steps : Obligations.EveryRunEndsWithin65536Steps := by
  intro s h
  obtain ⟨t, hrun, ht⟩ := run_next_of_memoryAnswers 65536 h
  refine ⟨t, hrun, fun running => ?_⟩
  have advanced := (ht running).2
  have bound := t.pc.isLt
  omega

end Sys2Proof.Machine
end

section
/-!
The loader's two forms of bytes and of cells (spec 70_reset_and_hazards.md R195, 30_encoding.md
R97): accepted writes fill the cells in order, and the first write that is not accepted ends the
load at its address (20_memory.md R54, R57, R68).
-/

namespace Sys2Proof.Machine

/-- The cells of two runs of bytes, the second where the first ends. -/
theorem cellsFrom_append (at0 : Nat) (front back : List Byte) :
    cellsFrom at0 (front ++ back) = cellsFrom at0 front ++ cellsFrom (at0 + front.length) back := by
  induction front generalizing at0 with
  | nil => rfl
  | cons b front ih =>
    rw [List.cons_append, cellsFrom, ih, cellsFrom, List.cons_append, List.length_cons,
      Nat.add_right_comm, Nat.add_assoc]

/-- The cells of loaded bytes, with the `k`-th written out. -/
theorem cellsFrom_zero_split {bytes : List Byte} {k : Nat} (h : k < bytes.length) :
    cellsFrom 0 bytes =
      cellsFrom 0 (bytes.take k) ++
        (BitVec.ofNat 16 k, bytes[k]) :: cellsFrom (k + 1) (bytes.drop (k + 1)) := by
  have split_at : bytes = bytes.take k ++ bytes[k] :: bytes.drop (k + 1) := by
    rw [List.getElem_cons_drop, List.take_append_drop]
  have position : 0 + (bytes.take k).length = k := by
    rw [Nat.zero_add, List.length_take_of_le h.le]
  conv_lhs => rw [split_at, cellsFrom_append, position, cellsFrom]

theorem writeCells_concat (cells : List (Addr × Byte)) (a : Addr) (v : Byte)
    (m : List Host.Cell) :
    writeCells (cells ++ [(a, v)]) m = Memory.write (writeCells cells m) a v := by
  simp [writeCells]

/-- Fewer writes of a memory that accepts the next `n`. -/
theorem State.WritesOk.mono {k n : Nat} {s : State} (h : s.WritesOk n) (le : k ≤ n) :
    s.WritesOk k := fun a ha => h a (List.take_subset_take_left _ le ha)

/-- The answer at place `k` is the next one after `k` writes. -/
theorem headD_drop_of_getElem? {answers : List WriteAnswer} {k : Nat} {x : WriteAnswer}
    (h : answers[k]? = some x) : (answers.drop k).headD .ok = x := by
  rw [List.headD_eq_head?_getD, List.head?_drop, h, Option.getD_some]

section FirstFailure
variable {earlier : List (Addr × Byte)} {k : Nat} {s : State} (count : earlier.length = k)
  (ok : s.WritesOk k)
include count ok

/-! The write after those of the `k` cells `earlier` is the first that is not accepted. -/

theorem loadCells_first_unavailable (later : List (Addr × Byte)) (a : Addr) (v : Byte)
    (h : s.writeAnswers[k]? = some .unavailable) :
    loadCells (earlier ++ (a, v) :: later) s = .failed (.memUnavailable a) := by
  subst count
  exact (loadCells_append ok).trans (loadCells_unavailable _ _ _ (headD_drop_of_getElem? h))

theorem loadCells_first_never (later : List (Addr × Byte)) (a : Addr) (v : Byte)
    (h : s.writeAnswers[k]? = some .never) :
    loadCells (earlier ++ (a, v) :: later) s = .failed (.memoryNeverAnswers a) := by
  subst count
  exact (loadCells_append ok).trans (loadCells_never _ _ _ (headD_drop_of_getElem? h))

end FirstFailure

/-- Bytes that a memory accepts stand from address 0 upward; every other cell, and everything but
memory and the answers used, stays. -/
theorem loadBytes_places {bytes : List Byte} {s : State} (hm : Memory.wf s.mem = true)
    (fits : bytes.length ≤ 65536) (ok : s.WritesOk bytes.length) :
    ∃ t, loadBytes bytes s = .ready t ∧
      t = { s with mem := t.mem, writeAnswers := s.writeAnswers.drop bytes.length } ∧
      (∀ (i : Nat) (h : i < bytes.length), Memory.read t.mem (BitVec.ofNat 16 i) = bytes[i]) ∧
      ∀ a : Addr, bytes.length ≤ a.toNat → Memory.read t.mem a = Memory.read s.mem a := by
  refine ⟨_, loadBytes_of_writesOk fits ok, rfl, fun i h => ?_, fun a ha => ?_⟩
  · have placed := read_writeCells_cellsFrom hm ((Nat.zero_add _).trans_le fits) h
    rwa [Nat.zero_add] at placed
  · exact read_writeCells_cellsFrom_of_outside (by omega) (.inr (by omega)) s.mem

/-- The last of some cells that a memory accepts is written over the memory the others leave. -/
theorem loadCells_concat {cells : List (Addr × Byte)} {a : Addr} {v : Byte} {s : State}
    (hm : Memory.wf s.mem = true) (ok : s.WritesOk (cells.length + 1)) :
    ∃ t u, loadCells (cells ++ [(a, v)]) s = .ready t ∧ loadCells cells s = .ready u ∧
      Memory.read t.mem a = v ∧ ∀ b, b ≠ a → Memory.read t.mem b = Memory.read u.mem b := by
  have all_ok : s.WritesOk (cells ++ [(a, v)]).length := by rwa [List.length_append]
  refine ⟨_, _, loadCells_of_writesOk all_ok,
    loadCells_of_writesOk (ok.mono (Nat.le_succ _)), ?_, fun b hb => ?_⟩ <;>
    simp only [writeCells_concat]
  · exact Memory.read_write_self (writeCells_wf hm) a v
  · exact Memory.read_write_of_ne v hb

/-- Settles O59: the cells filled by accepted writes, and the first write that is not accepted, for
bytes as for cells. -/
theorem loaderPlacesBytesInOrder : Obligations.LoaderPlacesBytesInOrder := by
  refine ⟨fun bytes s hm => ⟨loadBytes_places hm, fun k hk fits ok => ?_, fun long => ?_⟩,
    fun cells a v s => loadCells_concat,
    fun earlier later a v s ok =>
      ⟨loadCells_first_unavailable rfl ok later a v, loadCells_first_never rfl ok later a v⟩⟩
  · have count : (cellsFrom 0 (bytes.take k)).length = k := by
      rw [cellsFrom_length, List.length_take_of_le hk.le]
    rw [loadBytes, if_pos fits, cellsFrom_zero_split hk]
    exact ⟨loadCells_first_unavailable count ok _ _ _, loadCells_first_never count ok _ _ _⟩
  · rw [loadBytes, if_neg (by omega)]

end Sys2Proof.Machine
end

section
/-! The event of reset (spec 70_reset_and_hazards.md R190, R191; 10_state.md R42, R43). -/

namespace Sys2Proof.Machine

/-- Settles O7: the event of reset keeps memory, its answers and the count of free values, and takes
every other field from `State.reset`. -/
theorem resetEventRestoresCoreAndKeepsMemory : Obligations.ResetEventRestoresCoreAndKeepsMemory :=
  fun _ => rfl

end Sys2Proof.Machine
end
